-- ==== Sys2Proof/Word.lean ====
section
/-! DEFINITION. The byte, the register number, the interrupt line and the wrap to 8 bits (spec/00_scope.md R8, R9). -/

namespace Sys2Proof

/-- A value of a register, of FL or of a memory cell: an unsigned integer 0..255 (R8). -/
abbrev Byte := BitVec 8

/-- The number of a general register, R0..R7 (R20, R83). -/
abbrev RegNum := Fin 8

/-- The number of an interrupt line, 0..7 (R270). -/
abbrev Line := Fin 8

/-- `u8(v) = v mod 256` with the mathematical modulo, in 0..255 for negative `v` too (R8). -/
def u8 (v : Int) : Byte := BitVec.ofInt 8 v

/-- A byte as the unsigned integer it stands for (R8). -/
abbrev uint (b : Byte) : Int := (b.toNat : Int)

end Sys2Proof
end

