-- ==== Sys2Proof/Syntax.lean ====
section
/-! DEFINITION. The 31 instructions (spec/30_encoding.md R86), and the raw instruction that decoding starts from. -/

namespace Sys2Proof

/-- An instruction as the decoder hands it to the machine: the mnemonic, its operand registers and, for LDI, its
immediate (R100). One constructor per row of spec/opcode_table.json, in the order of R86. -/
inductive Instr where
  | hlt
  | iret
  | push (r : RegNum)
  | pop (r : RegNum)
  | prn (r : RegNum)
  | pra (r : RegNum)
  | int (r : RegNum)
  | jmp (r : RegNum)
  | jeq (r : RegNum)
  | jne (r : RegNum)
  | jgt (r : RegNum)
  | jlt (r : RegNum)
  | jle (r : RegNum)
  | jge (r : RegNum)
  | inc (r : RegNum)
  | dec (r : RegNum)
  | not (r : RegNum)
  | ldi (a : RegNum) (imm : Byte)
  | ld (a b : RegNum)
  | st (a b : RegNum)
  | add (a b : RegNum)
  | sub (a b : RegNum)
  | mul (a b : RegNum)
  | div (a b : RegNum)
  | mod (a b : RegNum)
  | cmp (a b : RegNum)
  | and (a b : RegNum)
  | or (a b : RegNum)
  | xor (a b : RegNum)
  | shl (a b : RegNum)
  | shr (a b : RegNum)
  deriving DecidableEq, Repr

/-- The four instruction formats (R82). -/
inductive Format where
  /-- the opcode alone -/
  | z
  /-- opcode, register byte -/
  | r
  /-- opcode, register byte, register byte -/
  | rr
  /-- opcode, register byte, immediate byte -/
  | ri
  deriving DecidableEq, Repr

/-- How many operand bytes follow the opcode in a format (R82). -/
def Format.operandBytes : Format → Nat
  | .z => 0
  | .r => 1
  | .rr => 2
  | .ri => 2

/-- The format of each instruction (R82). -/
def Instr.format : Instr → Format
  | .hlt | .iret => .z
  | .push _ | .pop _ | .prn _ | .pra _ | .int _ => .r
  | .jmp _ | .jeq _ | .jne _ | .jgt _ | .jlt _ | .jle _ | .jge _ => .r
  | .inc _ | .dec _ | .not _ => .r
  | .ldi _ _ => .ri
  | .ld _ _ | .st _ _ => .rr
  | .add _ _ | .sub _ _ | .mul _ _ | .div _ _ | .mod _ _ | .cmp _ _ => .rr
  | .and _ _ | .or _ _ | .xor _ _ | .shl _ _ | .shr _ _ => .rr

/-- An instruction's length in bytes, `n + 1` (R80, R100). -/
def Instr.length (i : Instr) : Nat := i.format.operandBytes + 1

/-- What the core has fetched before it decodes: the opcode byte and the operand bytes (R80, R96 step 3). A raw
instruction may be ill-formed; `RawInstr.wellFormed` says when it is not. -/
structure RawInstr where
  opcode : Byte
  operands : List Byte
  deriving DecidableEq, Repr

end Sys2Proof
end

