-- ==== Sys2Proof/Decode.lean ====
section
/-! DEFINITION. The decoder, total on any bytes and rejecting by name, and the encoder (spec/30_encoding.md R80 to R100). -/

namespace Sys2Proof

/-- The operand count field: bits 7:6 of the opcode (R80, R81). The value 3 is no defined count (R88). -/
def operandCount (opcode : Byte) : Nat := opcode.toNat / 64

/-- How an instruction is built from its operands: one shape per format of R82. -/
inductive Build where
  | z (i : Instr)
  | r (f : RegNum → Instr)
  | rr (f : RegNum → RegNum → Instr)
  | ri (f : RegNum → Byte → Instr)

/-- The opcode map of R86, one row per instruction, in its order. -/
def opcodeRows : List (Byte × Build) :=
  [ (0b00000001, .z .hlt),
    (0b00010011, .z .iret),
    (0b01000101, .r .push),
    (0b01000110, .r .pop),
    (0b01000111, .r .prn),
    (0b01001000, .r .pra),
    (0b01010010, .r .int),
    (0b01010100, .r .jmp),
    (0b01010101, .r .jeq),
    (0b01010110, .r .jne),
    (0b01010111, .r .jgt),
    (0b01011000, .r .jlt),
    (0b01011001, .r .jle),
    (0b01011010, .r .jge),
    (0b01100101, .r .inc),
    (0b01100110, .r .dec),
    (0b01101001, .r .not) ] ++
  [ (0b10000010, .ri .ldi),
    (0b10000011, .rr .ld),
    (0b10000100, .rr .st),
    (0b10100000, .rr .add),
    (0b10100001, .rr .sub),
    (0b10100010, .rr .mul),
    (0b10100011, .rr .div),
    (0b10100100, .rr .mod),
    (0b10100111, .rr .cmp),
    (0b10101000, .rr .and),
    (0b10101010, .rr .or),
    (0b10101011, .rr .xor),
    (0b10101100, .rr .shl),
    (0b10101101, .rr .shr) ]

/-- The row whose opcode is the given byte, matching all 8 bits (R86). -/
def findRow (opcode : Byte) : List (Byte × Build) → Option Build
  | [] => none
  | (b, f) :: rows => if b = opcode then some f else findRow opcode rows

/-- Why the decoder rejects a fetched instruction (R87, R88, R99). -/
inductive Reject where
  /-- the opcode byte is none of the 31 of R86 -/
  | unsupported
  /-- a register operand byte is 8..255: the first such byte in operand order -/
  | invalidRegister (r : Byte)
  deriving DecidableEq, Repr

/-- Why decoding a list of bytes fails. -/
inductive DecodeError where
  /-- the list ends before the opcode or before the operand bytes the opcode asks for -/
  | truncated
  /-- all the bytes are there and the decoder rejects them -/
  | rejected (why : Reject)
  deriving DecidableEq, Repr

/-- The register an operand byte names (R83); a byte above 7 names none (R99). -/
def registerOf (r : Byte) : Except Reject RegNum :=
  if h : r.toNat < 8 then .ok ⟨r.toNat, h⟩ else .error (.invalidRegister r)

/-- The operand bytes turned into an instruction, register operands checked in operand order (R99). -/
def Build.apply : Build → List Byte → Except Reject Instr
  | .z i, [] => .ok i
  | .r f, [x] =>
    match registerOf x with
    | .ok a => .ok (f a)
    | .error e => .error e
  | .rr f, [x, y] =>
    match registerOf x with
    | .ok a =>
      match registerOf y with
      | .ok b => .ok (f a b)
      | .error e => .error e
    | .error e => .error e
  | .ri f, [x, y] =>
    match registerOf x with
    | .ok a => .ok (f a y)
    | .error e => .error e
  | _, _ => .error .unsupported

/-- Decode step of the cycle: the opcode byte and its fetched operand bytes to an instruction (R96 step 4, R100). The
opcode is recognised before the register operands are checked (R98, R99). -/
def decodeFetched (opcode : Byte) (operands : List Byte) : Except Reject Instr :=
  match findRow opcode opcodeRows with
  | some f => f.apply operands
  | none => .error .unsupported

/-- Decode the first instruction of a list of bytes and give the rest of the list. An opcode with bits 7:6 = 11 is
rejected before any operand byte is read (R88). -/
def decode : List Byte → Except DecodeError (Instr × List Byte)
  | [] => .error .truncated
  | opcode :: bytes =>
    if operandCount opcode = 3 then .error (.rejected .unsupported)
    else if bytes.length < operandCount opcode then .error .truncated
    else
      match decodeFetched opcode (bytes.take (operandCount opcode)) with
      | .ok i => .ok (i, bytes.drop (operandCount opcode))
      | .error e => .error (.rejected e)

/-- The operand byte of a register (R83). -/
def registerByte (r : RegNum) : Byte := BitVec.ofNat 8 r.val

/-- The bytes of an instruction, in increasing addresses (R54, R82, R86; the `encoding` of spec/opcode_table.json). -/
def encode : Instr → List Byte
  | .hlt => [0x01]
  | .iret => [0x13]
  | .push r => [0x45, registerByte r]
  | .pop r => [0x46, registerByte r]
  | .prn r => [0x47, registerByte r]
  | .pra r => [0x48, registerByte r]
  | .int r => [0x52, registerByte r]
  | .jmp r => [0x54, registerByte r]
  | .jeq r => [0x55, registerByte r]
  | .jne r => [0x56, registerByte r]
  | .jgt r => [0x57, registerByte r]
  | .jlt r => [0x58, registerByte r]
  | .jle r => [0x59, registerByte r]
  | .jge r => [0x5A, registerByte r]
  | .inc r => [0x65, registerByte r]
  | .dec r => [0x66, registerByte r]
  | .not r => [0x69, registerByte r]
  | .ldi a imm => [0x82, registerByte a, imm]
  | .ld a b => [0x83, registerByte a, registerByte b]
  | .st a b => [0x84, registerByte a, registerByte b]
  | .add a b => [0xA0, registerByte a, registerByte b]
  | .sub a b => [0xA1, registerByte a, registerByte b]
  | .mul a b => [0xA2, registerByte a, registerByte b]
  | .div a b => [0xA3, registerByte a, registerByte b]
  | .mod a b => [0xA4, registerByte a, registerByte b]
  | .cmp a b => [0xA7, registerByte a, registerByte b]
  | .and a b => [0xA8, registerByte a, registerByte b]
  | .or a b => [0xAA, registerByte a, registerByte b]
  | .xor a b => [0xAB, registerByte a, registerByte b]
  | .shl a b => [0xAC, registerByte a, registerByte b]
  | .shr a b => [0xAD, registerByte a, registerByte b]

/-- The three bytes of a table word: bit `i` of byte `k` is bit `8k + i`, and every bit above `nbits` is 0
(the `encoding_note` of spec/opcode_table.json). -/
def tableWordBytes (nbits w : Nat) : List Byte :=
  let v := w % 2 ^ nbits
  [BitVec.ofNat 8 v, BitVec.ofNat 8 (v / 2 ^ 8), BitVec.ofNat 8 (v / 2 ^ 16)]

/-- The instruction the decoder reads from a table word; `none` where it rejects the bytes. -/
def decodeTableWord (nbits w : Nat) : Option Instr :=
  match decode (tableWordBytes nbits w) with
  | .ok (i, _) => some i
  | .error _ => none

end Sys2Proof
end

