-- ==== Sys2Proof/Config.lean ====
section
/-! DEFINITION. The core's fixed parameters (spec/00_scope.md R6) and the values this model names for what the spec leaves open. -/

namespace Sys2Proof.Config

/-- The number of memory bytes, addresses 0..255 (R6, R50). -/
def memSize : Nat := 256

/-- The key mailbox, 0xF4 (R6, R57, R275). -/
def mailbox : Nat := 0xF4

/-- The address of line 0's vector entry; line `i` has entry `248 + i` (R6, R57, R270). -/
def vectorBase : Nat := 248

/-- SP after reset (R6, R23, R38). -/
def resetSP : Byte := 0xF4

/-- The program counter after reset: the image is loaded at 0 and runs from there (R38, R321). -/
def resetPC : Nat := 0

/-- What an address that memory does not list reads as.
DESIGN CHOICE (log entry 3), unsafe where a run starts from `State.reset`: the spec's MEM_FILL is an OPEN parameter. -/
def memFill : Byte := 0

/-! ## Free inputs

`elapsed_k` and `key_k` of every cycle `k` are free (R7, R95). Past the inputs that a state lists, cycle `k` samples these
constants at `k`; they have no value that a proof could use, so a claim holds for every environment (log entry 5). -/

/-- The wall-clock seconds since the previous poll: a numerator, and a denominator less one (R95, R272). -/
opaque freeElapsed : Nat → Nat × Nat

/-- No key, or one key byte (R95, R274). -/
opaque freeKey : Nat → Option Byte

end Sys2Proof.Config
end

