-- ==== Sys2Proof/Machine/State.lean ====
section
/-! DEFINITION. The machine's state, its faults and refusals, and the state after reset (spec/10_state.md, spec/60_exceptions.md R260). -/

namespace Sys2Proof.Machine

/-- The register file: eight 8-bit cells, no banks, none hard-wired (R20). R5 is IM, R6 is IS, R7 is SP: the same
cells, not copies (R10, R21, R22, R23). -/
structure RegFile where
  r0 : Byte
  r1 : Byte
  r2 : Byte
  r3 : Byte
  r4 : Byte
  r5 : Byte
  r6 : Byte
  r7 : Byte
  deriving DecidableEq, Repr

/-- A non-negative rational number of seconds, `num / (denMinusOne + 1)` (R35). Every value of the type is a
non-negative rational, so no state holds a negative time. -/
structure Seconds where
  num : Nat
  denMinusOne : Nat
  deriving DecidableEq, Repr

/-- No time at all: the accumulator at reset and a quiet cycle's elapsed time (R38, D11). -/
def Seconds.zero : Seconds := ⟨0, 0⟩

/-- What one cycle samples: the wall-clock time since the previous poll, and no key or one key byte (R95, R272, R274). -/
structure CycleInput where
  elapsed : Seconds
  key : Option Byte
  deriving DecidableEq, Repr

/-- A cycle in which no time passes and no key is ready. -/
def CycleInput.quiet : CycleInput := ⟨Seconds.zero, none⟩

/-- An event of the console output stream (R243). -/
inductive OutEvent where
  /-- PRN: the byte as a decimal number and a newline (R240) -/
  | prn (v : Byte)
  /-- PRA: the character whose code point is the byte (R241) -/
  | pra (v : Byte)
  deriving DecidableEq, Repr

/-- The fault taxonomy with the information each fault records (R260). Stopping with these is what the spec says the
core does, so no constructor is a stop of the model's own. -/
inductive FaultInfo where
  /-- Raised by a fetch or an operand fetch outside 0..255, a push at SP = 0, a pop at SP = 255, a load of an image
  longer than 256 bytes; records the offending address, -1 or 256 and above (R52, R60, R61, R261, R322). Safe: where
  hardware wrapped, the model stops. -/
  | addressingError (addr : Int)
  /-- Raised by DIV and MOD when the divisor register holds 0; records IR and the operand registers (R114, R115, R262).
  Safe: the spec's own stop. -/
  | divideByZero (ir : Byte) (a b : RegNum)
  /-- Raised by the decoder for the 225 opcode bytes outside the table; records IR and PC (R87, R88, R263). Safe: the
  spec's own stop. -/
  | unsupportedInstruction (ir : Byte) (pc : Nat)
  /-- Raised by nothing: the spec's internal ALU-dispatch fault, unreachable in a correct model (R128, R264). Safe. -/
  | unsupportedOperation (operation : Byte)
  /-- Raised by the decoder for a register operand byte 8..255; records IR, PC and the byte (R99, R265). Safe: the
  source leaves such an operand undefined. -/
  | invalidRegister (ir : Byte) (pc : Nat) (r : Byte)
  deriving DecidableEq, Repr

/-- The engine state: Running, or one of the two terminal states (R34). -/
inductive RunState where
  | running
  | halted
  | faulted (info : FaultInfo)
  deriving DecidableEq, Repr

/-- Memory: (address, byte) pairs, addresses strictly rising, no entry equal to what an unlisted address reads as.
`Memory.wf` says so. -/
abbrev Memory := List Host.Cell

/-- The complete state of the core: the tuple at the head of spec/10_state.md, and the model's own fields `inputs` and `polled`. -/
structure State where
  /-- R0..R7 (R20) -/
  regs : RegFile
  /-- the flags, bits 2..0 = L, G, E (R26) -/
  fl : Byte
  /-- the program counter, an unbounded natural number (R29, R31) -/
  pc : Nat
  /-- the opcode of the instruction being decoded (R32) -/
  ir : Byte
  /-- the interrupt-enable flag (R33) -/
  ie : Bool
  /-- the engine state (R34) -/
  run : RunState
  /-- the timer accumulator, in seconds (R35) -/
  tacc : Seconds
  /-- the 256 bytes of memory (R36, R50) -/
  mem : Memory
  /-- the console output stream, oldest event first (R36, R243) -/
  out : List OutEvent
  /-- The model's own field, not the spec's: what the coming cycles sample, the next one first (R95); once the list is
  empty a cycle samples free values. DESIGN CHOICE (log entry 5). -/
  inputs : List CycleInput
  /-- The model's own field, not the spec's: how many polls there have been, the `k` of the next cycle's free inputs (R95).
  DESIGN CHOICE (log entry 5). -/
  polled : Nat
  deriving DecidableEq, Repr

/-- How a cycle stops the run. -/
inductive Fault where
  /-- Every fault of the spec: fatal and terminal (R266). Raised by the meanings, the fetch, the decoder, the stack
  primitives and the load port, and answered again by every step from a faulted state. `final` is the state the fault
  leaves, precise at the statement that raised it, its `run` being `faulted info` (R12, R267). The stop itself is safe;
  the contents of `final` are the spec's choice and unsafe to rest on (U7, log entry 8). -/
  | fatal (info : FaultInfo) (final : State)
  deriving DecidableEq, Repr

/-- Why a meaning is missing. -/
inductive Refusal where
  /-- Raised by exec's arm of an instruction that has no meaning yet: no arm of this model is one. Safe. -/
  | notModelled (mnemonic : String)
  deriving DecidableEq, Repr

/-- The outcome of one step of this machine. -/
abbrev Result := Host.Outcome State Fault Refusal

/-- What the spec leaves open at reset: RESET_GPR (R0..R6), RESET_FL, MEM_FILL as the memory's contents (R7, R38, D8, D9),
the reset value of IR, which the spec does not give (R38), and the first inputs of the environment (R95);
whatever follows them is free. -/
structure Launch where
  r0 : Byte
  r1 : Byte
  r2 : Byte
  r3 : Byte
  r4 : Byte
  r5 : Byte
  r6 : Byte
  fl : Byte
  ir : Byte
  fill : Memory
  inputs : List CycleInput
  deriving DecidableEq, Repr

/-- The machine right after reset, for any choice of what the spec leaves open: every other element has the value of
R38 (R320). A claim about every hardware quantifies over the `Launch`. -/
def State.resetWith (p : Launch) : State where
  regs := ⟨p.r0, p.r1, p.r2, p.r3, p.r4, p.r5, p.r6, Config.resetSP⟩
  fl := p.fl
  pc := Config.resetPC
  ir := p.ir
  ie := true
  run := .running
  tacc := Seconds.zero
  mem := p.fill
  out := []
  inputs := p.inputs
  polled := 0

/-- The values this model names for the open parameters: zeros, nothing listed in memory, and no listed
input, so that every cycle's inputs are free.
DESIGN CHOICE (log entries 1 to 5), unsafe: the spec leaves them OPEN. -/
def Launch.named : Launch := ⟨0, 0, 0, 0, 0, 0, 0, 0, 0, [], []⟩

/-- The machine right after reset (R38, R320) with the named values in place of the open parameters. -/
def State.reset : State := State.resetWith Launch.named

end Sys2Proof.Machine
end

