-- ==== Sys2Proof/Machine/Ops.lean ====
section
/-! DEFINITION. The named operations over registers, memory, the stack and the program counter, and the taking of an interrupt and the return from one (spec/10_state.md, spec/20_memory.md, spec/60_exceptions.md). -/

namespace Sys2Proof.Machine

/-! ## Registers -/

/-- `x[r]` (R10). -/
def RegFile.get (f : RegFile) (r : RegNum) : Byte :=
  match r with
  | 0 => f.r0
  | 1 => f.r1
  | 2 => f.r2
  | 3 => f.r3
  | 4 => f.r4
  | 5 => f.r5
  | 6 => f.r6
  | 7 => f.r7

/-- `x[r] <- v` (R10). -/
def RegFile.set (f : RegFile) (r : RegNum) (v : Byte) : RegFile :=
  match r with
  | 0 => { f with r0 := v }
  | 1 => { f with r1 := v }
  | 2 => { f with r2 := v }
  | 3 => { f with r3 := v }
  | 4 => { f with r4 := v }
  | 5 => { f with r5 := v }
  | 6 => { f with r6 := v }
  | 7 => { f with r7 := v }

/-- R5, the interrupt mask (R21). -/
abbrev IM : RegNum := 5

/-- R6, the interrupt status (R22). -/
abbrev IS : RegNum := 6

/-- R7, the stack pointer (R23). -/
abbrev SP : RegNum := 7

/-- Read a general register. -/
def State.reg (s : State) (r : RegNum) : Byte := s.regs.get r

/-- Write a general register: the one home of register writes (R20, R25). -/
def State.setReg (s : State) (r : RegNum) (v : Byte) : State := { s with regs := s.regs.set r v }

/-! ## The other state elements, one named update each -/

/-- `FL <- v` (R10). -/
def State.setFl (s : State) (v : Byte) : State := { s with fl := v }

/-- `pc <- target` (R10). -/
def State.setPc (s : State) (target : Nat) : State := { s with pc := target }

/-- `IR <- v` (R32). -/
def State.setIr (s : State) (v : Byte) : State := { s with ir := v }

/-- `IE <- b` (R33). -/
def State.setIe (s : State) (b : Bool) : State := { s with ie := b }

/-- `run <- r` (R34). -/
def State.setRun (s : State) (r : RunState) : State := { s with run := r }

/-- `Tacc <- t` (R35). -/
def State.setTacc (s : State) (t : Seconds) : State := { s with tacc := t }

/-- Replace the memory (R36). -/
def State.setMem (s : State) (m : Memory) : State := { s with mem := m }

/-- Replace the output stream (R36). -/
def State.setOut (s : State) (o : List OutEvent) : State := { s with out := o }

/-- Replace the coming inputs (the model's own field, R95). -/
def State.setInputs (s : State) (l : List CycleInput) : State := { s with inputs := l }

/-- Replace the number of polls (the model's own field, R95). -/
def State.setPolled (s : State) (k : Nat) : State := { s with polled := k }

/-- The generic advance `pc <- pc + n + 1`, by the instruction's length in bytes; not wrapped (R31, R97). -/
def State.advance (s : State) (len : Nat) : State := s.setPc (s.pc + len)

/-- A control transfer to a byte address, with no advance (R97, R190). -/
def State.jump (s : State) (target : Byte) : State := s.setPc target.toNat

/-- `emit(e)`: append one event to the console output stream (R12, R243). -/
def State.emit (s : State) (e : OutEvent) : State := s.setOut (s.out ++ [e])

/-! ## Faults -/

/-- The numeric codes the spec gives the faults (R260). -/
def FaultInfo.code : FaultInfo → Nat
  | .addressingError _ => 1
  | .divideByZero _ _ _ => 2
  | .unsupportedInstruction _ _ => 3
  | .unsupportedOperation _ => 4
  | .invalidRegister _ _ _ => 5

/-- `raise F(info)`: end the cycle at once with `run <- Faulted(F, info)` (R12, R266), every earlier write kept (R267). -/
def raise (info : FaultInfo) (s : State) : Result :=
  .fault (.fatal info (s.setRun (.faulted info)))

/-! ## Memory -/

/-- The byte at an address: the listed one, else what an unlisted address reads as. -/
def Memory.read : Memory → Nat → Byte
  | [], _ => Config.memFill
  | (b, w) :: rest, a => if b = a then w else Memory.read rest a

/-- The memory without its entry at an address. -/
def Memory.erase (m : Memory) (a : Nat) : Memory := m.filter fun c => decide (c.1 ≠ a)

/-- An entry put before the first one of a higher address. -/
def Memory.insert : Memory → Nat → Byte → Memory
  | [], a, v => [(a, v)]
  | (b, w) :: rest, a, v => if a < b then (a, v) :: (b, w) :: rest else (b, w) :: Memory.insert rest a v

/-- Store a byte, keeping the canonical form: addresses rise and no entry holds the unlisted value. -/
def Memory.write (m : Memory) (a : Nat) (v : Byte) : Memory :=
  if v = Config.memFill then m.erase a else (m.erase a).insert a v

/-- The entries lie at `low` or above, in strictly rising addresses below 256, none with the unlisted value. -/
def Memory.wfFrom (low : Nat) : Memory → Bool
  | [] => true
  | (a, v) :: rest =>
    decide (low ≤ a) && decide (a < Config.memSize) && decide (v ≠ Config.memFill) && Memory.wfFrom (a + 1) rest

/-- The canonical form of memory: equal memories are equal lists. -/
def Memory.wf (m : Memory) : Bool := Memory.wfFrom 0 m

/-- The canonical memory whose byte at each address `a` of 0..255 is `f a`: MEM_FILL as a list (R7, D9). -/
def Memory.ofFun (f : Nat → Byte) : Memory :=
  ((List.range Config.memSize).map fun a => (a, f a)).filter fun c => decide (c.2 ≠ Config.memFill)

/-- The address check of every access (R52). -/
def inMemory (addr : Int) : Bool := decide (0 ≤ addr) && decide (addr < (Config.memSize : Int))

/-- `MemRead(addr, 1)`, its byte handed to what follows; AddressingError outside 0..255 (R11, R52). -/
def memRead (addr : Int) (s : State) (k : Byte → Result) : Result :=
  if inMemory addr then k (s.mem.read addr.toNat) else raise (.addressingError addr) s

/-- `MemWrite(addr, 1, v)`: stores `u8(v)`; AddressingError outside 0..255 (R11, R52, R53). -/
def memWrite (addr : Int) (v : Int) (s : State) (k : State → Result) : Result :=
  if inMemory addr then k (s.setMem (s.mem.write addr.toNat (u8 v)))
  else raise (.addressingError addr) s

/-! ## The stack -/

/-- The address `Push` stores to: one below SP; -1 when SP = 0 (R60). -/
def pushAddress (s : State) : Int := uint (s.reg SP) - 1

/-- `Push(v)`: decrement SP, then store `u8(v)` at the new SP; at SP = 0 AddressingError(-1) with nothing written (R60). -/
def pushByte (v : Int) (s : State) (k : State → Result) : Result :=
  if pushAddress s < 0 then raise (.addressingError (pushAddress s)) s
  else memWrite (pushAddress s) v (s.setReg SP (u8 (pushAddress s))) k

/-- `Pop()`: read at SP, then increment SP; at SP = 255 AddressingError(256) and nothing is returned (R61). -/
def popByte (s : State) (k : Byte → State → Result) : Result :=
  memRead (uint (s.reg SP)) s fun v =>
    let a : Int := uint (s.reg SP) + 1
    if a > 255 then raise (.addressingError a) s
    else k v (s.setReg SP (u8 a))

/-- Push the named registers one after another (R279 step 3). -/
def pushRegs : List RegNum → State → (State → Result) → Result
  | [], s, k => k s
  | r :: rs, s, k => pushByte (uint (s.reg r)) s fun s => pushRegs rs s k

/-- Pop into the named registers one after another (R221). -/
def popRegs : List RegNum → State → (State → Result) → Result
  | [], s, k => k s
  | r :: rs, s, k => popByte s fun v s => popRegs rs (s.setReg r v) k

/-! ## Taking an interrupt and returning from one -/

/-- `Trap(i)`: interrupts off, IS cleared, PC, FL and R0..R6 pushed, PC from the vector entry of line `i`; the cycle
ends there (R279, R281). -/
def takeInterrupt (i : Line) (s : State) : Result :=
  pushByte (s.pc : Int) ((s.setIe false).setReg IS 0) fun s =>
  pushByte (uint s.fl) s fun s =>
  pushRegs [0, 1, 2, 3, 4, 5, 6] s fun s =>
  memRead ((Config.vectorBase + i.val : Nat) : Int) s fun v =>
  .next (s.jump v)

/-- The return from an interrupt: R6..R0, then FL, then PC popped, interrupts on; no advance (R221). -/
def returnFromInterrupt (s : State) : Result :=
  popRegs [6, 5, 4, 3, 2, 1, 0] s fun s =>
  popByte s fun fl s =>
  popByte (s.setFl fl) fun pc s =>
  .next ((s.jump pc).setIe true)

/-! ## The load port -/

/-- Store the image bytes from address `k` on (R322). -/
def loadFrom (k : Nat) : List Int → State → Result
  | [], s => .next s
  | v :: image, s => memWrite (k : Int) v s fun s => loadFrom (k + 1) image s

/-- `load(sequence of bytes)`: byte `k` stored at address `k` modulo 256; the 257th byte raises AddressingError(256) and
the run does not start (R322). The host calls it after reset and before the first cycle. -/
def loadImage (image : List Int) (s : State) : Result := loadFrom 0 image s

end Sys2Proof.Machine
end

