-- ==== Sys2Proof/Machine/Flags.lean ====
section
/-! DEFINITION. The flags: what CMP computes and what the conditional jumps test (spec/10_state.md R26, spec/40_alu.md R124, spec/43_control.md R198). -/

namespace Sys2Proof.Machine

/-- L, bit 2: the last CMP found A < B (R26). -/
def flagL : Byte := 0b00000100

/-- G, bit 1: the last CMP found A > B (R26). -/
def flagG : Byte := 0b00000010

/-- E, bit 0: the last CMP found A = B (R26). -/
def flagE : Byte := 0b00000001

/-- The whole FL byte CMP writes: exactly one of L, G, E, bits 7..3 zero; the comparison is unsigned (R124). -/
def compareFlags (a b : Byte) : Byte :=
  if a.toNat < b.toNat then flagL
  else if a.toNat > b.toNat then flagG
  else flagE

/-- A mask test holds when FL has at least one of the mask's bits set (R198). -/
def maskTest (fl mask : Byte) : Bool := decide (fl &&& mask ≠ 0)

/-- JEQ's condition: E. -/
def condEq (fl : Byte) : Bool := maskTest fl flagE

/-- JNE's condition: not E. -/
def condNe (fl : Byte) : Bool := !maskTest fl flagE

/-- JGT's condition: G. -/
def condGt (fl : Byte) : Bool := maskTest fl flagG

/-- JGE's condition: G or E. -/
def condGe (fl : Byte) : Bool := maskTest fl (flagG ||| flagE)

/-- JLT's condition: L. -/
def condLt (fl : Byte) : Bool := maskTest fl flagL

/-- JLE's condition: L or E. -/
def condLe (fl : Byte) : Bool := maskTest fl (flagL ||| flagE)

end Sys2Proof.Machine
end

