-- ==== Sys2Proof/Machine/Operands.lean ====
section
/-! DEFINITION. The operand forms: register, register written, immediate, register indirect, and the shapes of the ALU instructions over them (spec/40_alu.md R110, spec/41_load_store.md). -/

namespace Sys2Proof.Machine

/-- `OP a, b` writing its first register: both values are read before the write, then PC advances by 3 (R110, R126). -/
def binaryAlu (f : Byte → Byte → Byte) (a b : RegNum) (s : State) : Result :=
  .next ((s.setReg a (f (s.reg a) (s.reg b))).advance 3)

/-- `OP r` writing its one register, then PC advances by 2 (R110). -/
def unaryAlu (f : Byte → Byte) (r : RegNum) (s : State) : Result :=
  .next ((s.setReg r (f (s.reg r))).advance 2)

/-- DIV and MOD: DivideByZero before anything is written when the divisor register holds 0 (R114, R115, R262). -/
def divisionAlu (f : Byte → Byte → Byte) (a b : RegNum) (s : State) : Result :=
  if s.reg b = 0 then raise (.divideByZero s.ir a b) s else binaryAlu f a b s

/-- The immediate form: the operand byte as it is (R84). -/
def loadImmediate (a : RegNum) (imm : Byte) (s : State) : Result :=
  .next ((s.setReg a imm).advance 3)

/-- The address of the register-indirect form: the register's value, with no offset (41_load_store.md). -/
def indirectAddress (r : RegNum) (s : State) : Int := uint (s.reg r)

/-- A load through the register-indirect form. -/
def loadIndirect (a b : RegNum) (s : State) : Result :=
  memRead (indirectAddress b s) s fun v => .next ((s.setReg a v).advance 3)

/-- A store through the register-indirect form. -/
def storeIndirect (a b : RegNum) (s : State) : Result :=
  memWrite (indirectAddress a s) (uint (s.reg b)) s fun s => .next (s.advance 3)

/-- A jump through a register when its condition holds; otherwise the generic advance of 2 (R190, R198). -/
def jumpWhen (taken : Bool) (r : RegNum) (s : State) : Result :=
  if taken then .next (s.jump (s.reg r)) else .next (s.advance 2)

end Sys2Proof.Machine
end

