-- ==== Sys2Proof/Machine/Alu.lean ====
section
/-! DEFINITION. The 14 ALU instructions (spec/40_alu.md R111 to R124): computed on integers, stored modulo 256. -/

namespace Sys2Proof.Machine

/-! ## The operations -/

/-- A + B modulo 256 (R111). -/
def aluAdd (a b : Byte) : Byte := u8 (uint a + uint b)

/-- A - B modulo 256 (R112). -/
def aluSub (a b : Byte) : Byte := u8 (uint a - uint b)

/-- A * B modulo 256 (R113). -/
def aluMul (a b : Byte) : Byte := u8 (uint a * uint b)

/-- Unsigned floor division; used only with B ≠ 0 (R114). -/
def aluDiv (a b : Byte) : Byte := u8 ((a.toNat / b.toNat : Nat) : Int)

/-- Unsigned remainder; used only with B ≠ 0 (R115). -/
def aluMod (a b : Byte) : Byte := u8 ((a.toNat % b.toNat : Nat) : Int)

/-- A + 1 modulo 256 (R116). -/
def aluInc (a : Byte) : Byte := u8 (uint a + 1)

/-- A - 1 modulo 256 (R117). -/
def aluDec (a : Byte) : Byte := u8 (uint a - 1)

/-- 255 - A, the 8-bit complement (R121). -/
def aluNot (a : Byte) : Byte := u8 (255 - uint a)

/-- A * 2^B modulo 256, B being 0..255 (R122). -/
def aluShl (a b : Byte) : Byte := u8 ((a.toNat * 2 ^ b.toNat : Nat) : Int)

/-- A div 2^B, zeros entering at bit 7, B being 0..255 (R123). -/
def aluShr (a b : Byte) : Byte := u8 ((a.toNat / 2 ^ b.toNat : Nat) : Int)

/-! ## The instructions -/

/-- ADD (R111). -/
def execAdd (a b : RegNum) (s : State) : Result := binaryAlu aluAdd a b s

/-- SUB (R112). -/
def execSub (a b : RegNum) (s : State) : Result := binaryAlu aluSub a b s

/-- MUL (R113). -/
def execMul (a b : RegNum) (s : State) : Result := binaryAlu aluMul a b s

/-- DIV (R114). -/
def execDiv (a b : RegNum) (s : State) : Result := divisionAlu aluDiv a b s

/-- MOD (R115). -/
def execMod (a b : RegNum) (s : State) : Result := divisionAlu aluMod a b s

/-- INC (R116). -/
def execInc (r : RegNum) (s : State) : Result := unaryAlu aluInc r s

/-- DEC (R117). -/
def execDec (r : RegNum) (s : State) : Result := unaryAlu aluDec r s

/-- AND (R118). -/
def execAnd (a b : RegNum) (s : State) : Result := binaryAlu (fun x y => x &&& y) a b s

/-- OR (R119). -/
def execOr (a b : RegNum) (s : State) : Result := binaryAlu (fun x y => x ||| y) a b s

/-- XOR (R120). -/
def execXor (a b : RegNum) (s : State) : Result := binaryAlu (fun x y => x ^^^ y) a b s

/-- NOT (R121). -/
def execNot (r : RegNum) (s : State) : Result := unaryAlu aluNot r s

/-- SHL (R122). -/
def execShl (a b : RegNum) (s : State) : Result := binaryAlu aluShl a b s

/-- SHR (R123). -/
def execShr (a b : RegNum) (s : State) : Result := binaryAlu aluShr a b s

/-- CMP: FL alone is written, then PC advances by 3 (R124). -/
def execCmp (a b : RegNum) (s : State) : Result :=
  .next ((s.setFl (compareFlags (s.reg a) (s.reg b))).advance 3)

end Sys2Proof.Machine
end

