-- ==== Sys2Proof/Machine/Control.lean ====
section
/-! DEFINITION. The jumps (spec/43_control.md R190 to R198). -/

namespace Sys2Proof.Machine

/-- JMP (R191). -/
def execJmp (r : RegNum) (s : State) : Result := jumpWhen true r s

/-- JEQ (R192). -/
def execJeq (r : RegNum) (s : State) : Result := jumpWhen (condEq s.fl) r s

/-- JNE (R193). -/
def execJne (r : RegNum) (s : State) : Result := jumpWhen (condNe s.fl) r s

/-- JGT (R194). -/
def execJgt (r : RegNum) (s : State) : Result := jumpWhen (condGt s.fl) r s

/-- JGE (R195). -/
def execJge (r : RegNum) (s : State) : Result := jumpWhen (condGe s.fl) r s

/-- JLT (R196). -/
def execJlt (r : RegNum) (s : State) : Result := jumpWhen (condLt s.fl) r s

/-- JLE (R197). -/
def execJle (r : RegNum) (s : State) : Result := jumpWhen (condLe s.fl) r s

end Sys2Proof.Machine
end

