-- ==== Sys2Proof/Machine/InterruptInstr.lean ====
section
/-! DEFINITION. INT and IRET (spec/44_interrupt_instructions.md R220 to R223). -/

namespace Sys2Proof.Machine

/-- `u8(IS | (1 << s))`: a line number of 8 or more sets no bit (R220). -/
def raiseLine (is line : Byte) : Byte := u8 ((is.toNat ||| (1 <<< line.toNat) : Nat) : Int)

/-- INT: mark the line whose number the register holds pending; no trap of its own, PC advances by 2 (R220). -/
def execInt (r : RegNum) (s : State) : Result :=
  .next ((s.setReg IS (raiseLine (s.reg IS) (s.reg r))).advance 2)

/-- IRET (R221). -/
def execIret (s : State) : Result := returnFromInterrupt s

end Sys2Proof.Machine
end

