-- ==== Sys2Proof/Machine/LoadStore.lean ====
section
/-! DEFINITION. LDI, LD and ST (spec/41_load_store.md R150 to R153). -/

namespace Sys2Proof.Machine

/-- LDI: `x[a] <- imm` (R150). -/
def execLdi (a : RegNum) (imm : Byte) (s : State) : Result := loadImmediate a imm s

/-- LD: `x[a] <- mem[x[b]]` (R151, D6). -/
def execLd (a b : RegNum) (s : State) : Result := loadIndirect a b s

/-- ST: `mem[x[a]] <- x[b]` (R152, D6). -/
def execSt (a b : RegNum) (s : State) : Result := storeIndirect a b s

end Sys2Proof.Machine
end

