-- ==== Sys2Proof/Machine/OutputHalt.lean ====
section
/-! DEFINITION. PRN, PRA and HLT, and the text the output events stand for (spec/45_output_halt.md R240 to R243). -/

namespace Sys2Proof.Machine

/-- PRN: emit the register's value as a number; PC advances by 2 (R240). -/
def execPrn (r : RegNum) (s : State) : Result := .next ((s.emit (.prn (s.reg r))).advance 2)

/-- PRA: emit the register's value as a character; PC advances by 2 (R241). -/
def execPra (r : RegNum) (s : State) : Result := .next ((s.emit (.pra (s.reg r))).advance 2)

/-- HLT: the generic advance of 1, then the terminal state Halted (R242). -/
def execHlt (s : State) : Result := .next ((s.advance 1).setRun .halted)

/-- The characters an event stands for: a number's decimal digits and a newline, or the one character with that code
point (R240, R241, R243). How a console encodes them is the host's. -/
def OutEvent.text : OutEvent → List Char
  | .prn v => Nat.toDigits 10 v.toNat ++ ['\n']
  | .pra v => [Char.ofNat v.toNat]

/-- The text the host prints: the renderings one after another (R243). -/
def consoleText (out : List OutEvent) : List Char := out.flatMap OutEvent.text

end Sys2Proof.Machine
end

