-- ==== Sys2Proof/Machine/Stack.lean ====
section
/-! DEFINITION. PUSH and POP (spec/42_stack.md R170 to R172). -/

namespace Sys2Proof.Machine

/-- PUSH: the register is read before SP moves (R170, D7). -/
def execPush (r : RegNum) (s : State) : Result :=
  pushByte (uint (s.reg r)) s fun s => .next (s.advance 2)

/-- POP: the register is written after SP has moved, so `POP R7` leaves the popped byte in SP (R171, D7). -/
def execPop (r : RegNum) (s : State) : Result :=
  popByte s fun v s => .next ((s.setReg r v).advance 2)

end Sys2Proof.Machine
end

