-- ==== Sys2Proof/Machine/Interrupt.lean ====
section
/-! DEFINITION. The interrupt controller: polling, the pending test and the priority scan (spec/60_exceptions.md R270 to R278). -/

namespace Sys2Proof.Machine

/-! ## The timer's arithmetic -/

/-- The denominator of a time. -/
def Seconds.den (t : Seconds) : Nat := t.denMinusOne + 1

/-- The fraction `n / d` in lowest terms, for `d` at least 1. -/
def Seconds.ofFraction (n d : Nat) : Seconds := ⟨n / Nat.gcd n d, d / Nat.gcd n d - 1⟩

/-- The sum of two times, exact. -/
def Seconds.add (t u : Seconds) : Seconds :=
  Seconds.ofFraction (t.num * u.den + u.num * t.den) (t.den * u.den)

/-- The time reaches or exceeds one second (R272). -/
def Seconds.atLeastOne (t : Seconds) : Bool := decide (t.den ≤ t.num)

/-- One second less, for a time of at least one second: fractional carry is preserved (R272). -/
def Seconds.minusOne (t : Seconds) : Seconds := ⟨t.num - t.den, t.denMinusOne⟩

/-! ## Polling -/

/-- The pending bit of line 0, the timer's (R270, R272). -/
def timerBit : Byte := 0b00000001

/-- The pending bit of line 1, the key's (R270, R274). -/
def keyBit : Byte := 0b00000010

/-- The timer part of the poll: at most one second is consumed per pass (R272). -/
def pollTimer (elapsed : Seconds) (s : State) : State :=
  let t := s.tacc.add elapsed
  if t.atLeastOne then (s.setReg IS (s.reg IS ||| timerBit)).setTacc t.minusOne
  else s.setTacc t

/-- The key part of the poll: a ready byte goes to the mailbox and line 1 becomes pending (R274, R275). -/
def pollKey (key : Option Byte) (s : State) : State :=
  match key with
  | none => s
  | some b => (s.setReg IS (s.reg IS ||| keyBit)).setMem (s.mem.write Config.mailbox b)

/-- The free inputs of cycle `k` (R7, R95, log entry 5). -/
def CycleInput.free (k : Nat) : CycleInput := ⟨⟨(Config.freeElapsed k).1, (Config.freeElapsed k).2⟩, Config.freeKey k⟩

/-- What this cycle samples: the next listed input, or free values when none is left (R95, log entry 5). -/
def State.nextInput (s : State) : CycleInput :=
  match s.inputs with
  | [] => CycleInput.free s.polled
  | i :: _ => i

/-- The sampled input is used up and the poll is counted. -/
def State.sampled (s : State) : State := (s.setInputs s.inputs.tail).setPolled (s.polled + 1)

/-- Step 1 of every cycle, whatever IE and IM hold: the timer, then the key (R96, R271, R274). The sampled input is
used up and the poll is counted. -/
def poll (s : State) : State :=
  pollKey s.nextInput.key (pollTimer s.nextInput.elapsed s.sampled)

/-! ## The trap condition -/

/-- The lowest bit set, scanning bits 0..7 in increasing order (R278). -/
def lowestLine (pending : Byte) : Option Line :=
  [0, 1, 2, 3, 4, 5, 6, 7].find? fun i : Line => pending.getLsbD i.val

/-- The line a trap is due for, if any: IE is true and `IM & IS` is not 0 (R277, R278). -/
def trapDue (s : State) : Option Line :=
  if s.ie then lowestLine (s.reg IM &&& s.reg IS) else none

end Sys2Proof.Machine
end

