-- ==== Sys2Proof/Machine/Cycle.lean ====
section
/-! DEFINITION. One cycle while Running: poll, then a trap, or the fetch, decoding and execution of one instruction (spec/30_encoding.md R96, R98). -/

namespace Sys2Proof.Machine

/-- Fetch `n` operand bytes from `addr` on, in increasing addresses; AddressingError at the first outside memory (R96 step 3). -/
def fetchOperands : Nat → Int → State → (List Byte → Result) → Result
  | 0, _, _, k => k []
  | n + 1, addr, s, k =>
    memRead addr s fun b => fetchOperands n (addr + 1) s fun bs => k (b :: bs)

/-- Step 4: recognise the opcode, check the register operands, execute; a rejection is the fault it names, with IR and
the PC of the opcode byte (R87, R98, R99, R263, R265). -/
def decodeAndExecute (operands : List Byte) (s : State) : Result :=
  match decodeFetched s.ir operands with
  | .ok i => exec i s
  | .error .unsupported => raise (.unsupportedInstruction s.ir s.pc) s
  | .error (.invalidRegister r) => raise (.invalidRegister s.ir s.pc r) s

/-- Steps 2 to 6: the opcode into IR, bits 7:6 = 11 refused before any operand is fetched, then the operands (R88, R96). -/
def fetchAndExecute (s : State) : Result :=
  memRead (s.pc : Int) s fun opcode =>
    if operandCount opcode = 3 then raise (.unsupportedInstruction opcode s.pc) (s.setIr opcode)
    else fetchOperands (operandCount opcode) ((s.pc : Int) + 1) (s.setIr opcode) fun operands =>
      decodeAndExecute operands (s.setIr opcode)

/-- After the poll: a due trap takes the whole cycle, before any fetch; otherwise one instruction runs (R277, R281, R287). -/
def trapOrExecute (s : State) : Result :=
  match trapDue s with
  | some i => takeInterrupt i s
  | none => fetchAndExecute s

/-- One cycle of a running core (R96). -/
def cycle (s : State) : Result := trapOrExecute (poll s)

end Sys2Proof.Machine
end

