-- ==== Sys2Proof/Machine/Step.lean ====
section
/-! DEFINITION. One step of the machine (spec/30_encoding.md R94, R96), and the placing of one instruction for the next step. -/

namespace Sys2Proof.Machine

/-- One step: a cycle while Running (R34, R94). Halted is terminal: no cycle runs and the state stays as it is
(R242, U14; log entry 7). Faulted is terminal: the fault stands (R266; log entry 8). -/
def step (s : State) : Host.Outcome State Fault Refusal :=
  match s.run with
  | .running => cycle s
  | .halted => .next s
  | .faulted info => .fault (.fatal info s)

/-- Store bytes from an address on. -/
def storeBytes : Nat → List Byte → Memory → Memory
  | _, [], m => m
  | a, b :: bs, m => storeBytes (a + 1) bs (m.write a b)

/-- The state with a table word stored where `step` fetches next, and whatever keeps the next step from fetching it
taken away: a quiet input goes in front (a key byte could overwrite it), a core that has stopped runs, a PC without
three bytes of memory from it on becomes 0, and IE is cleared if the poll would leave a trap due (log entry 10). -/
def State.withFetchWord (s : State) (nbits w : Nat) : State :=
  let at_ : Nat := if s.pc + 3 ≤ Config.memSize then s.pc else 0
  let t : State :=
    { s with
      pc := at_
      run := .running
      mem := storeBytes at_ (tableWordBytes nbits w) s.mem
      inputs := CycleInput.quiet :: s.inputs }
  if (trapDue (poll t)).isSome then { t with ie := false } else t

end Sys2Proof.Machine
end

