-- ==== Sys2Proof/WellFormed.lean ====
section
/-! DEFINITION. Which raw instructions are well-formed (spec/30_encoding.md R82, R86, R87, R99). An `Instr` carries its
register numbers as `RegNum`, so every `Instr` is well-formed by its type; the checks stand on the bytes it is read from. -/

namespace Sys2Proof

/-- The format of an opcode byte, for the 31 bytes of R86; `none` for the other 225 (R87). -/
def opcodeFormat (opcode : Byte) : Option Format :=
  match opcode.toNat with
  | 0x01 | 0x13 => some .z
  | 0x45 | 0x46 | 0x47 | 0x48 | 0x52 => some .r
  | 0x54 | 0x55 | 0x56 | 0x57 | 0x58 | 0x59 | 0x5A => some .r
  | 0x65 | 0x66 | 0x69 => some .r
  | 0x82 => some .ri
  | 0x83 | 0x84 => some .rr
  | 0xA0 | 0xA1 | 0xA2 | 0xA3 | 0xA4 | 0xA7 => some .rr
  | 0xA8 | 0xAA | 0xAB | 0xAC | 0xAD => some .rr
  | _ => none

/-- `bad(r)` fails: the register operand byte names one of R0..R7 (R12, R99). -/
def registerByteValid (r : Byte) : Bool := r.toNat < 8

/-- The opcode is one of the 31 (R86, R87). -/
def RawInstr.opcodeKnown (w : RawInstr) : Bool := (opcodeFormat w.opcode).isSome

/-- The number of operand bytes is the format's (R80, R82). -/
def RawInstr.operandCountRight (w : RawInstr) : Bool :=
  match opcodeFormat w.opcode with
  | some f => w.operands.length == f.operandBytes
  | none => false

/-- Every operand byte that the format gives as a register is 0..7; LDI's immediate is not checked (R99). -/
def RawInstr.registersValid (w : RawInstr) : Bool :=
  match opcodeFormat w.opcode, w.operands with
  | some .r, [x] => registerByteValid x
  | some .rr, [x, y] => registerByteValid x && registerByteValid y
  | some .ri, [x, _] => registerByteValid x
  | some .z, [] => true
  | _, _ => false

/-- The raw instruction is one the core executes: known opcode, right operand count, valid register bytes. -/
def RawInstr.wellFormed (w : RawInstr) : Bool :=
  w.opcodeKnown && w.operandCountRight && w.registersValid

end Sys2Proof
end

