-- ==== Sys2Proof/Safety.lean ====
section
/-! DEFINITION. The terms the claims use: the invariant, frames, what each instruction may write, and a run without a fault. -/

namespace Sys2Proof.Machine

/-! ## The invariant -/

/-- A time as a rational number (R35). -/
def Seconds.toRat (t : Seconds) : ℚ := (t.num : ℚ) / (t.den : ℚ)

/-- The fraction is in lowest terms, so equal times are equal data. -/
def Seconds.lowest (t : Seconds) : Bool := Nat.gcd t.num t.den == 1

/-- The engine is Running or Halted: no step answers a faulted state as its next state (R12, R34). -/
def RunState.notFaulted : RunState → Bool
  | .running => true
  | .halted => true
  | .faulted _ => false

/-- What every step keeps: memory in its canonical form, PC at most 256 (a fetch past 255 has faulted, R31, R96), the
timer's fraction in lowest terms, and the engine not faulted. -/
abbrev State.Inv (s : State) : Prop :=
  s.mem.wf = true ∧ s.pc ≤ 256 ∧ s.tacc.lowest = true ∧ s.run.notFaulted = true

/-! ## Frames -/

/-- Every register outside the list is unchanged. -/
def KeepsRegsBut (regs : List RegNum) (s t : State) : Prop := ∀ r, r ∉ regs → t.reg r = s.reg r

/-- Every byte of memory outside the list of addresses reads as before. -/
def KeepsMemBut (addrs : List Nat) (s t : State) : Prop := ∀ a, a ∉ addrs → t.mem.read a = s.mem.read a

/-- Everything but the listed registers, the listed memory bytes and PC is unchanged: the other registers, the other
bytes, FL, IE, IR, the engine state, the timer, the output stream, the coming inputs and the
count of polls. -/
def Frame (regs : List RegNum) (addrs : List Nat) (s t : State) : Prop :=
  KeepsRegsBut regs s t ∧ KeepsMemBut addrs s t ∧ t.fl = s.fl ∧ t.ie = s.ie ∧ t.ir = s.ir ∧ t.run = s.run ∧
    t.tacc = s.tacc ∧ t.out = s.out ∧ t.inputs = s.inputs ∧
    t.polled = s.polled

/-! ## What an instruction may write -/

/-- The registers an instruction writes (R25). -/
def writtenRegs : Instr → List RegNum
  | .hlt => []
  | .iret => [0, 1, 2, 3, 4, 5, 6, SP]
  | .push _ => [SP]
  | .pop r => [r, SP]
  | .prn _ | .pra _ => []
  | .int _ => [IS]
  | .jmp _ | .jeq _ | .jne _ | .jgt _ | .jlt _ | .jle _ | .jge _ => []
  | .inc r | .dec r | .not r => [r]
  | .ldi a _ => [a]
  | .ld a _ => [a]
  | .st _ _ => []
  | .add a _ | .sub a _ | .mul a _ | .div a _ | .mod a _ => [a]
  | .cmp _ _ => []
  | .and a _ | .or a _ | .xor a _ | .shl a _ | .shr a _ => [a]

/-- The addresses an instruction stores to (R152, R170). -/
def storedTo (i : Instr) (s : State) : List Nat :=
  match i with
  | .st a _ => [(indirectAddress a s).toNat]
  | .push _ => [(pushAddress s).toNat]
  | _ => []

/-- The events an instruction emits (R243). -/
def emitted (i : Instr) (s : State) : List OutEvent :=
  match i with
  | .prn r => [.prn (s.reg r)]
  | .pra r => [.pra (s.reg r)]
  | _ => []

/-- Where an instruction transfers control to, in a state; `none` where it gets the generic advance (R89, R198). The
conditions are those of R198, written on the flag bits L = 2, G = 1, E = 0. IRET goes to the last of nine popped bytes. -/
def transferTarget (i : Instr) (s : State) : Option Nat :=
  let l := s.fl.getLsbD 2
  let g := s.fl.getLsbD 1
  let e := s.fl.getLsbD 0
  match i with
  | .jmp r => some (s.reg r).toNat
  | .jeq r => if e then some (s.reg r).toNat else none
  | .jne r => if !e then some (s.reg r).toNat else none
  | .jgt r => if g then some (s.reg r).toNat else none
  | .jge r => if g || e then some (s.reg r).toNat else none
  | .jlt r => if l then some (s.reg r).toNat else none
  | .jle r => if l || e then some (s.reg r).toNat else none
  | .iret => some (s.mem.read ((s.reg SP).toNat + 8)).toNat
  | _ => none

/-! ## Traps -/

/-- The interrupt frame in push order, the first pushed byte first: PC modulo 256, FL, R0..R5, and R6 as 0 (R280). -/
def trapFrame (s : State) : List Byte :=
  [BitVec.ofNat 8 s.pc, s.fl, s.reg 0, s.reg 1, s.reg 2, s.reg 3, s.reg 4, s.reg 5, 0]

/-- Line `i` is pending and enabled, and no lower line is (R277, R278). -/
def LowestPending (i : Line) (s : State) : Prop :=
  (s.reg IM &&& s.reg IS).getLsbD i.val = true ∧ ∀ j : Line, j < i → (s.reg IM &&& s.reg IS).getLsbD j.val = false

/-! ## Fetching and stopping -/

/-- The bytes of memory from an address to the top, which the decoder reads an instruction from. -/
def bytesFrom (m : Memory) (a : Nat) : List Byte := (List.range' a (Config.memSize - a)).map m.read

/-- The cycle stops with this fault, whatever state it leaves (U7). -/
def FaultsWith (r : Result) (info : FaultInfo) : Prop := ∃ t, r = .fault (.fatal info t)

/-- A change of state applied to an outcome, to the next state or to the state a fault leaves. -/
def mapState (f : State → State) : Result → Result
  | .next t => .next (f t)
  | .fault (.fatal info t) => .fault (.fatal info (f t))
  | .refused r => .refused r

/-- A safe run of `k` steps: every step answers a next state. -/
def RunsFor : Nat → State → Prop
  | 0, _ => True
  | k + 1, s => ∃ t, step s = .next t ∧ RunsFor k t

/-- The fault an instruction's own execution raises in a state, if any: DivideByZero of DIV and MOD, AddressingError of
PUSH at SP = 0, of POP at SP = 255 and of IRET when one of its nine pops starts at SP = 255 (R98 step 7, R261, R262). -/
def instructionFault (i : Instr) (s : State) : Option FaultInfo :=
  match i with
  | .div a b => if s.reg b = 0 then some (.divideByZero s.ir a b) else none
  | .mod a b => if s.reg b = 0 then some (.divideByZero s.ir a b) else none
  | .push _ => if (s.reg SP).toNat = 0 then some (.addressingError (-1)) else none
  | .pop _ => if (s.reg SP).toNat = 255 then some (.addressingError 256) else none
  | .iret => if 247 ≤ (s.reg SP).toNat then some (.addressingError 256) else none
  | _ => none

/-- The instruction at PC is `i`: the decoder reads it from the bytes of memory from PC on. -/
def InstructionAt (i : Instr) (s : State) : Prop := ∃ rest, decode (bytesFrom s.mem s.pc) = .ok (i, rest)

/-! ## Encodings, as the rules of the instructions give them -/

/-- Format Z: the opcode alone is the instruction (R82). -/
def DecodesZ (opcode : Byte) (i : Instr) : Prop := ∀ rest, decode (opcode :: rest) = .ok (i, rest)

/-- Format R: byte 1 is the register; a byte above 7 is rejected by name (R82, R99). -/
def DecodesR (opcode : Byte) (f : RegNum → Instr) : Prop :=
  (∀ r rest, decode (opcode :: registerByte r :: rest) = .ok (f r, rest)) ∧
  ∀ x rest, 8 ≤ x.toNat → decode (opcode :: x :: rest) = .error (.rejected (.invalidRegister x))

/-- Format RR: byte 1 is the first register, byte 2 the second; the first byte above 7 is rejected by name (R82, R99). -/
def DecodesRR (opcode : Byte) (f : RegNum → RegNum → Instr) : Prop :=
  (∀ a b rest, decode (opcode :: registerByte a :: registerByte b :: rest) = .ok (f a b, rest)) ∧
  (∀ x y rest, 8 ≤ x.toNat → decode (opcode :: x :: y :: rest) = .error (.rejected (.invalidRegister x))) ∧
  ∀ a y rest, 8 ≤ y.toNat → decode (opcode :: registerByte a :: y :: rest) = .error (.rejected (.invalidRegister y))

/-- Format RI: byte 1 is the register, byte 2 any immediate; a register byte above 7 is rejected by name (R82, R99). -/
def DecodesRI (opcode : Byte) (f : RegNum → Byte → Instr) : Prop :=
  (∀ a imm rest, decode (opcode :: registerByte a :: imm :: rest) = .ok (f a imm, rest)) ∧
  ∀ x imm rest, 8 ≤ x.toNat → decode (opcode :: x :: imm :: rest) = .error (.rejected (.invalidRegister x))

/-- What the rules of the two-register ALU instructions have in common: the encoding, and for all operands and states a
next state in which the first register holds `result` of the two values before, PC is 3 further and nothing else has
changed (R110, R126). -/
def BinaryAluRule (opcode : Byte) (f : RegNum → RegNum → Instr) (result : Nat → Nat → Nat) : Prop :=
  DecodesRR opcode f ∧
  ∀ a b s, ∃ t, exec (f a b) s = .next t ∧ (t.reg a).toNat = result (s.reg a).toNat (s.reg b).toNat ∧
    t.pc = s.pc + 3 ∧ Frame [a] [] s t

/-- The same for the one-register ALU instructions: PC is 2 further (R110). -/
def UnaryAluRule (opcode : Byte) (f : RegNum → Instr) (result : Nat → Nat) : Prop :=
  DecodesR opcode f ∧
  ∀ r s, ∃ t, exec (f r) s = .next t ∧ (t.reg r).toNat = result (s.reg r).toNat ∧ t.pc = s.pc + 2 ∧ Frame [r] [] s t

/-- The same for DIV and MOD: so with a divisor other than 0; with a divisor of 0 the fault DivideByZero, which records IR
and the operand registers and leaves the registers and PC as they were (R114, R115, R262). -/
def DivisionRule (opcode : Byte) (f : RegNum → RegNum → Instr) (result : Nat → Nat → Nat) : Prop :=
  DecodesRR opcode f ∧
  (∀ a b s, s.reg b ≠ 0 → ∃ t, exec (f a b) s = .next t ∧
    (t.reg a).toNat = result (s.reg a).toNat (s.reg b).toNat ∧ t.pc = s.pc + 3 ∧ Frame [a] [] s t) ∧
  ∀ a b s, s.reg b = 0 → ∃ t, exec (f a b) s = .fault (.fatal (.divideByZero s.ir a b) t) ∧
    (∀ r, t.reg r = s.reg r) ∧ t.pc = s.pc

/-- What the rules of the conditional jumps have in common: the encoding, and for all operands and states a next state
with PC at the register's value when the condition on FL holds, 2 further when it does not, and nothing else changed
(R190, R198). -/
def JumpRule (opcode : Byte) (f : RegNum → Instr) (taken : Byte → Bool) : Prop :=
  DecodesR opcode f ∧
  ∀ r s, ∃ t, exec (f r) s = .next t ∧ t.pc = (if taken s.fl then (s.reg r).toNat else s.pc + 2) ∧ Frame [] [] s t

end Sys2Proof.Machine
end

