-- ==== Sys2Proof/Certificates/Slice0/Obligations.lean ====
section
/-! DEFINITION. The statements for the provers: what the spec's rules say the instructions and the machine do. -/

open Sys2Proof Sys2Proof.Machine

/-- Words written out from the encodings of spec/opcode_table.json decode to their instructions (R86). -/
def Obligations.OpcodeBytesDecodeToTheirInstructions : Prop :=
  decode [0b00000001] = .ok (.hlt, []) ∧
  decode [0b00010011] = .ok (.iret, []) ∧
  decode [0b01000101, 0b00000010] = .ok (.push 2, []) ∧
  decode [0b01000110, 0b00000111] = .ok (.pop 7, []) ∧
  decode [0b01000111, 0b00000001] = .ok (.prn 1, []) ∧
  decode [0b01010010, 0b00000110] = .ok (.int 6, []) ∧
  decode [0b01011010, 0b00000100] = .ok (.jge 4, []) ∧
  decode [0b01101001, 0b00000011] = .ok (.not 3, []) ∧
  decode [0b10000010, 0b00000101, 0b11001000] = .ok (.ldi 5 200, []) ∧
  decode [0b10000100, 0b00000010, 0b00000001] = .ok (.st 2 1, []) ∧
  decode [0b10100001, 0b00000011, 0b00000110] = .ok (.sub 3 6, []) ∧
  decode [0b10101101, 0b00000000, 0b00000111] = .ok (.shr 0 7, [])

/-- Decode and encode agree on every instruction with every operand (R80, R82, R86). -/
def Obligations.DecodeOfEncodeIsTheInstruction : Prop :=
  ∀ (i : Instr) (rest : List Byte), decode (encode i ++ rest) = .ok (i, rest)

/-- Every accepted word has one meaning and every instruction one word (R86, R91). -/
def Obligations.EncodeOfDecodeIsTheBytes : Prop :=
  ∀ (bytes : List Byte) (i : Instr) (rest : List Byte), decode bytes = .ok (i, rest) → bytes = encode i ++ rest

/-- The decoder and the well-formedness check agree, in both directions (R82, R86, R87, R99). -/
def Obligations.DecoderAcceptsExactlyTheWellFormed : Prop :=
  ∀ (opcode : Byte) (operands : List Byte), operands.length = operandCount opcode →
    ((∃ i, decode (opcode :: operands) = .ok (i, [])) ↔ (RawInstr.mk opcode operands).wellFormed = true)

/-- What a step adds around exec: the poll before it and IR (R96 steps 1 to 4). -/
def Obligations.StepRunsTheDecodedInstruction : Prop :=
  ∀ (s : State) (i : Instr) (rest : List Byte), s.run = .running → trapDue (poll s) = none →
    decode (bytesFrom (poll s).mem s.pc) = .ok (i, rest) →
    step s = exec i ((poll s).setIr ((poll s).mem.read s.pc))

/-- The order of the fetch and decode faults is the decoder's (R96, R98 steps 2 to 6). -/
def Obligations.RejectedBytesAtPcFaultByName : Prop :=
  ∀ s : State, s.run = .running → trapDue (poll s) = none →
    (decode (bytesFrom (poll s).mem s.pc) = .error .truncated →
      FaultsWith (step s) (.addressingError (max s.pc 256 : Nat))) ∧
    (decode (bytesFrom (poll s).mem s.pc) = .error (.rejected .unsupported) →
      FaultsWith (step s) (.unsupportedInstruction ((poll s).mem.read s.pc) s.pc)) ∧
    ∀ r, decode (bytesFrom (poll s).mem s.pc) = .error (.rejected (.invalidRegister r)) →
      FaultsWith (step s) (.invalidRegister ((poll s).mem.read s.pc) s.pc r)

/-- Illegal opcode bytes (R87, R88, R263). -/
def Obligations.UnknownOpcodeFaultsWithByteAndPc : Prop :=
  ((List.range 256).filter fun n => (opcodeFormat (BitVec.ofNat 8 n)).isNone).length = 225 ∧
  ∀ s : State, s.run = .running → trapDue (poll s) = none → s.pc < 256 →
    opcodeFormat ((poll s).mem.read s.pc) = none →
    (192 ≤ ((poll s).mem.read s.pc).toNat →
      FaultsWith (step s) (.unsupportedInstruction ((poll s).mem.read s.pc) s.pc)) ∧
    (((poll s).mem.read s.pc).toNat < 192 → s.pc + operandCount ((poll s).mem.read s.pc) < 256 →
      FaultsWith (step s) (.unsupportedInstruction ((poll s).mem.read s.pc) s.pc)) ∧
    (((poll s).mem.read s.pc).toNat < 192 → 256 ≤ s.pc + operandCount ((poll s).mem.read s.pc) →
      FaultsWith (step s) (.addressingError 256))

/-- Register operands are checked after the opcode is recognised and before anything executes (R99). That the fault leaves
the polled state with IR is the choice of R267 (D13, U7) and of log entry 8, not a word of R99. -/
def Obligations.InvalidRegisterByteFaultsBeforeExecution : Prop :=
  ∀ (s : State) (f : Format), s.run = .running → trapDue (poll s) = none →
    opcodeFormat ((poll s).mem.read s.pc) = some f → s.pc + f.operandBytes < 256 →
    (f ≠ .z → 8 ≤ ((poll s).mem.read (s.pc + 1)).toNat →
      step s = raise (.invalidRegister ((poll s).mem.read s.pc) s.pc ((poll s).mem.read (s.pc + 1)))
        ((poll s).setIr ((poll s).mem.read s.pc))) ∧
    (f = .rr → ((poll s).mem.read (s.pc + 1)).toNat < 8 → 8 ≤ ((poll s).mem.read (s.pc + 2)).toNat →
      step s = raise (.invalidRegister ((poll s).mem.read s.pc) s.pc ((poll s).mem.read (s.pc + 2)))
        ((poll s).setIr ((poll s).mem.read s.pc))) ∧
    (f = .ri → ((poll s).mem.read (s.pc + 1)).toNat < 8 →
      ∃ a : RegNum, a.val = ((poll s).mem.read (s.pc + 1)).toNat ∧
        step s = exec (.ldi a ((poll s).mem.read (s.pc + 2))) ((poll s).setIr ((poll s).mem.read s.pc)))

/-- The trap condition and the priority (R277, R278). -/
def Obligations.PendingEnabledLineIsTakenBeforeTheFetch : Prop :=
  ∀ s : State, s.run = .running →
    (∀ i, (poll s).ie = true → LowestPending i (poll s) → step s = takeInterrupt i (poll s)) ∧
    ((poll s).ie = true → (poll s).reg IM &&& (poll s).reg IS ≠ 0 → ∃ i, LowestPending i (poll s)) ∧
    ((poll s).ie = false ∨ (poll s).reg IM &&& (poll s).reg IS = 0 → step s = fetchAndExecute (poll s))

/-- Trap entry, the interrupt frame and the trap on a short stack (R279, R280, R286). -/
def Obligations.TrapEntryPushesTheFrame : Prop :=
  ∀ (i : Line) (s : State),
    (9 ≤ (s.reg SP).toNat → ∃ t, takeInterrupt i s = .next t ∧
      t.ie = false ∧ t.reg IS = 0 ∧ (t.reg SP).toNat = (s.reg SP).toNat - 9 ∧
      (∀ k < 9, t.mem.read ((s.reg SP).toNat - 1 - k) = (trapFrame s).getD k 0) ∧
      t.pc = (t.mem.read (248 + i.val)).toNat ∧
      Frame [IS, SP] ((List.range 9).map fun k => (s.reg SP).toNat - 1 - k) (s.setIe false) t) ∧
    ((s.reg SP).toNat < 9 → ∃ t, takeInterrupt i s = .fault (.fatal (.addressingError (-1)) t) ∧
      t.ie = false ∧ t.reg IS = 0 ∧ (t.reg SP).toNat = 0 ∧
      ∀ k < (s.reg SP).toNat, t.mem.read ((s.reg SP).toNat - 1 - k) = (trapFrame s).getD k 0)

/-- IRET, with the pops done before its fault (R221). -/
def Obligations.IretPopsNineBytesAndEnablesInterrupts : Prop :=
  DecodesZ 0x13 .iret ∧
  ∀ s : State,
    ((s.reg SP).toNat ≤ 246 → ∃ t, exec .iret s = .next t ∧
      (∀ r : RegNum, r ≠ SP → t.reg r = s.mem.read ((s.reg SP).toNat + (6 - r.val))) ∧
      t.pc = (s.mem.read ((s.reg SP).toNat + 8)).toNat ∧ (t.reg SP).toNat = (s.reg SP).toNat + 9 ∧
      Frame (writtenRegs .iret) [] ((s.setFl (s.mem.read ((s.reg SP).toNat + 7))).setIe true) t) ∧
    (247 ≤ (s.reg SP).toNat → ∃ t, exec .iret s = .fault (.fatal (.addressingError 256) t) ∧
      (∀ r : RegNum, r ≠ SP → t.reg r =
        if (s.reg SP).toNat + (6 - r.val) < 255 then s.mem.read ((s.reg SP).toNat + (6 - r.val)) else s.reg r) ∧
      t.fl = (if (s.reg SP).toNat + 7 < 255 then s.mem.read ((s.reg SP).toNat + 7) else s.fl) ∧
      t.reg SP = 255 ∧ t.pc = s.pc ∧ t.ie = s.ie)

/-- IRET reverses the trap, with the cleared IS (R223, C2). -/
def Obligations.IretRightAfterATrapRestores : Prop :=
  ∀ (i : Line) (s t : State), takeInterrupt i s = .next t →
    ∃ u, exec .iret t = .next u ∧ u.pc = s.pc % 256 ∧ u.fl = s.fl ∧
      (∀ r : RegNum, r ≠ IS → u.reg r = s.reg r) ∧ u.reg IS = 0 ∧ u.ie = true

/-- Nesting is impossible (R285) and IE has no other writer (R288). -/
def Obligations.NoTrapWhileInterruptsAreOff : Prop :=
  ∀ s : State, s.run = .running → s.ie = false →
    step s = fetchAndExecute (poll s) ∧
    ∀ t, step s = .next t → t.ie = true → InstructionAt .iret (poll s)

/-- IE is not software-visible (R33, R288). -/
def Obligations.InterruptEnableIsInvisibleToInstructions : Prop :=
  ∀ (i : Instr) (s : State) (b : Bool),
    (i ≠ .iret → exec i (s.setIe b) = mapState (fun t => t.setIe b) (exec i s)) ∧
    (i = .iret → ∀ t, exec i s = .next t → exec i (s.setIe b) = .next t)

/-- A trap is taken at the next cycle's check after INT, for the raised line or a lower one that is pending and enabled too
(R220, R277, R278). -/
def Obligations.RaisedLineTrapsBeforeTheNextInstruction : Prop :=
  ∀ (r : RegNum) (s t : State), s.run = .running → s.ie = true → (s.reg r).toNat < 8 →
    (s.reg IM).getLsbD (s.reg r).toNat = true → exec (.int r) s = .next t →
    ∃ i : Line, LowestPending i (poll t) ∧ i.val ≤ (s.reg r).toNat ∧ step t = takeInterrupt i (poll t)

/-- The timer (R272). -/
def Obligations.TimerPollIsExact : Prop :=
  ∀ (e : Seconds) (s : State),
    (1 ≤ s.tacc.toRat + e.toRat →
      (pollTimer e s).tacc.toRat = s.tacc.toRat + e.toRat - 1 ∧ (pollTimer e s).reg IS = s.reg IS ||| 1) ∧
    (s.tacc.toRat + e.toRat < 1 →
      (pollTimer e s).tacc.toRat = s.tacc.toRat + e.toRat ∧ (pollTimer e s).reg IS = s.reg IS) ∧
    0 ≤ (pollTimer e s).tacc.toRat ∧
    Frame [IS] [] (s.setTacc (pollTimer e s).tacc) (pollTimer e s) ∧ (pollTimer e s).pc = s.pc

/-- The key input and the mailbox (R274, R275). -/
def Obligations.KeyPollFillsTheMailbox : Prop :=
  ∀ (s : State),
    pollKey none s = s ∧
    (∀ b : Byte, (pollKey (some b) s).mem.read 0xF4 = b ∧ (pollKey (some b) s).reg IS = s.reg IS ||| 2 ∧
      Frame [IS] [0xF4] s (pollKey (some b) s) ∧ (pollKey (some b) s).pc = s.pc) ∧
    ∀ e key, pollKey key (pollTimer e s) = pollTimer e (pollKey key s)

/-- The free tick of R273 and the accumulator admit the same behaviours. -/
def Obligations.AnyTickSequenceIsPossible : Prop :=
  ∀ s : State, s.tacc.toRat < 1 →
    (∃ e, (pollTimer e s).reg IS = s.reg IS ||| 1 ∧ (pollTimer e s).tacc.toRat = 0) ∧
    (pollTimer Seconds.zero s).reg IS = s.reg IS ∧ (pollTimer Seconds.zero s).tacc.toRat < 1

/-- Polling happens in every cycle, before the trap test and the fetch (R271, R96). The clause on the inputs used up and the
polls counted is about the model's own fields, DESIGN CHOICE (log entry 5). -/
def Obligations.EveryCyclePolls : Prop :=
  (∀ s : State, s.run = .running →
    (∀ i, trapDue (poll s) = some i → step s = takeInterrupt i (poll s)) ∧
    (trapDue (poll s) = none → step s = fetchAndExecute (poll s))) ∧
  (∀ s t : State, s.run = .running → step s = .next t →
    t.inputs = s.inputs.tail ∧ t.polled = s.polled + 1 ∧ t.tacc = (poll s).tacc) ∧
  ∀ (s : State) (b : Bool) (m : Byte),
    poll (s.setIe b) = (poll s).setIe b ∧ poll (s.setReg IM m) = (poll s).setReg IM m

/-- ADD, SUB, MUL (R111, R112, R113). -/
def Obligations.AddSubMulWrapTo8Bits : Prop :=
  BinaryAluRule 0xA0 .add (fun x y => (x + y) % 256) ∧
  BinaryAluRule 0xA1 .sub (fun x y => (x + 256 - y) % 256) ∧
  BinaryAluRule 0xA2 .mul (fun x y => x * y % 256)

/-- INC, DEC, NOT (R116, R117, R121). -/
def Obligations.IncDecNotWriteTheirRegister : Prop :=
  UnaryAluRule 0x65 .inc (fun x => (x + 1) % 256) ∧
  UnaryAluRule 0x66 .dec (fun x => (x + 255) % 256) ∧
  UnaryAluRule 0x69 .not (fun x => 255 - x)

/-- DIV, MOD (R114, R115). -/
def Obligations.DivModDivideOrFault : Prop :=
  DivisionRule 0xA3 .div (fun x y => x / y) ∧
  DivisionRule 0xA4 .mod (fun x y => x % y)

/-- The division law of R125. -/
def Obligations.QuotientAndRemainderRecombine : Prop :=
  ∀ (a b : RegNum) (s t u : State), s.reg b ≠ 0 → exec (.div a b) s = .next t → exec (.mod a b) s = .next u →
    (s.reg a).toNat = (t.reg a).toNat * (s.reg b).toNat + (u.reg a).toNat ∧ (u.reg a).toNat < (s.reg b).toNat

/-- AND, OR, XOR (R118, R119, R120). -/
def Obligations.AndOrXorAreBitwise : Prop :=
  BinaryAluRule 0xA8 .and (fun x y => x &&& y) ∧
  BinaryAluRule 0xAA .or (fun x y => x ||| y) ∧
  BinaryAluRule 0xAB .xor (fun x y => x ^^^ y)

/-- SHL, SHR (R122, R123). -/
def Obligations.ShiftsByAnyAmount : Prop :=
  BinaryAluRule 0xAC .shl (fun x y => x * 2 ^ y % 256) ∧
  BinaryAluRule 0xAD .shr (fun x y => x / 2 ^ y) ∧
  ∀ (a b : RegNum) (s t : State), 8 ≤ (s.reg b).toNat →
    exec (.shl a b) s = .next t ∨ exec (.shr a b) s = .next t → t.reg a = 0

/-- CMP (R124). -/
def Obligations.CmpWritesExactlyOneFlag : Prop :=
  DecodesRR 0xA7 .cmp ∧
  ∀ (a b : RegNum) (s : State), ∃ t, exec (.cmp a b) s = .next t ∧ t.pc = s.pc + 3 ∧
    Frame [] [] (s.setFl t.fl) t ∧
    ((s.reg a).toNat < (s.reg b).toNat → t.fl = 0b00000100) ∧
    ((s.reg b).toNat < (s.reg a).toNat → t.fl = 0b00000010) ∧
    ((s.reg a).toNat = (s.reg b).toNat → t.fl = 0b00000001)

/-- Both operands are the same pre-instruction value (R126). -/
def Obligations.SameRegisterAsBothOperands : Prop :=
  ∀ (a : RegNum) (s : State),
    (∀ t, exec (.add a a) s = .next t → (t.reg a).toNat = 2 * (s.reg a).toNat % 256) ∧
    (∀ t, exec (.sub a a) s = .next t → t.reg a = 0) ∧
    (∀ t, exec (.mul a a) s = .next t → (t.reg a).toNat = (s.reg a).toNat ^ 2 % 256) ∧
    (s.reg a ≠ 0 → ∃ t, exec (.div a a) s = .next t ∧ t.reg a = 1) ∧
    (s.reg a ≠ 0 → ∃ t, exec (.mod a a) s = .next t ∧ t.reg a = 0) ∧
    (s.reg a = 0 → FaultsWith (exec (.div a a) s) (.divideByZero s.ir a a) ∧
      FaultsWith (exec (.mod a a) s) (.divideByZero s.ir a a)) ∧
    (∀ t, exec (.and a a) s = .next t ∨ exec (.or a a) s = .next t → t.reg a = s.reg a) ∧
    (∀ t, exec (.xor a a) s = .next t → t.reg a = 0) ∧
    (∀ t, exec (.shl a a) s = .next t → t.reg a = s.reg a <<< (s.reg a).toNat) ∧
    (∀ t, exec (.shr a a) s = .next t → t.reg a = s.reg a >>> (s.reg a).toNat) ∧
    ∀ t, exec (.cmp a a) s = .next t → t.fl = 0b00000001

/-- LDI, LD (R150, R151). -/
def Obligations.LdiAndLdWriteOneRegister : Prop :=
  DecodesRI 0x82 .ldi ∧
  (∀ (a : RegNum) (imm : Byte) (s : State), ∃ t, exec (.ldi a imm) s = .next t ∧ t.reg a = imm ∧
    t.pc = s.pc + 3 ∧ Frame [a] [] s t) ∧
  DecodesRR 0x83 .ld ∧
  ∀ (a b : RegNum) (s : State), ∃ t, exec (.ld a b) s = .next t ∧ t.reg a = s.mem.read (s.reg b).toNat ∧
    t.pc = s.pc + 3 ∧ Frame [a] [] s t

/-- ST (R152). -/
def Obligations.StStoresOneByte : Prop :=
  DecodesRR 0x84 .st ∧
  ∀ (a b : RegNum) (s : State), ∃ t, exec (.st a b) s = .next t ∧
    t.mem.read (indirectAddress a s).toNat = s.reg b ∧ (indirectAddress a s).toNat = (s.reg a).toNat ∧
    t.pc = s.pc + 3 ∧ Frame [] [(indirectAddress a s).toNat] s t

/-- PUSH (R170). -/
def Obligations.PushStoresBelowSp : Prop :=
  DecodesR 0x45 .push ∧
  (∀ (r : RegNum) (s : State), 0 < (s.reg SP).toNat → ∃ t, exec (.push r) s = .next t ∧
    (t.reg SP).toNat = (s.reg SP).toNat - 1 ∧ t.mem.read (pushAddress s).toNat = s.reg r ∧
    (pushAddress s).toNat = (s.reg SP).toNat - 1 ∧
    t.pc = s.pc + 2 ∧ Frame [SP] [(pushAddress s).toNat] s t) ∧
  ∀ (r : RegNum) (s : State), (s.reg SP).toNat = 0 → ∃ t,
    exec (.push r) s = .fault (.fatal (.addressingError (-1)) t) ∧ (∀ q, t.reg q = s.reg q) ∧
      ∀ c, t.mem.read c = s.mem.read c

/-- POP (R171). -/
def Obligations.PopLoadsFromSp : Prop :=
  DecodesR 0x46 .pop ∧
  (∀ (r : RegNum) (s : State), (s.reg SP).toNat < 255 → ∃ t, exec (.pop r) s = .next t ∧
    t.reg r = s.mem.read (s.reg SP).toNat ∧ (r ≠ SP → (t.reg SP).toNat = (s.reg SP).toNat + 1) ∧
    t.pc = s.pc + 2 ∧ Frame [r, SP] [] s t) ∧
  ∀ (r : RegNum) (s : State), (s.reg SP).toNat = 255 → ∃ t,
    exec (.pop r) s = .fault (.fatal (.addressingError 256) t) ∧ ∀ q, t.reg q = s.reg q

/-- The stack round trip (R172). -/
def Obligations.PushThenPopRoundTrip : Prop :=
  ∀ (r q : RegNum) (s : State), 0 < (s.reg SP).toNat →
    ∃ t u, exec (.push r) s = .next t ∧ exec (.pop q) t = .next u ∧ u.reg q = s.reg r ∧
      (q ≠ SP → u.reg SP = s.reg SP) ∧ u.fl = s.fl ∧ u.pc = s.pc + 4 ∧
      ∀ v : Byte, exec (.push r) (s.setFl v) = .next (t.setFl v) ∧ exec (.pop q) (t.setFl v) = .next (u.setFl v)

/-- The seven jumps (R191 to R197). -/
def Obligations.JumpsGoThroughTheirRegister : Prop :=
  JumpRule 0x54 .jmp (fun _ => true) ∧
  JumpRule 0x55 .jeq (fun fl => decide (fl &&& 0b001 ≠ 0)) ∧
  JumpRule 0x56 .jne (fun fl => decide (fl &&& 0b001 = 0)) ∧
  JumpRule 0x57 .jgt (fun fl => decide (fl &&& 0b010 ≠ 0)) ∧
  JumpRule 0x5A .jge (fun fl => decide (fl &&& 0b011 ≠ 0)) ∧
  JumpRule 0x58 .jlt (fun fl => decide (fl &&& 0b100 ≠ 0)) ∧
  JumpRule 0x59 .jle (fun fl => decide (fl &&& 0b101 ≠ 0))

/-- CMP and the conditions together (R198, last sentence). -/
def Obligations.ComparisonDecidesTheJumps : Prop :=
  ∀ (a b : RegNum) (s t : State), exec (.cmp a b) s = .next t →
    (condEq t.fl = true ↔ (s.reg a).toNat = (s.reg b).toNat) ∧
    (condNe t.fl = true ↔ (s.reg a).toNat ≠ (s.reg b).toNat) ∧
    (condGt t.fl = true ↔ (s.reg b).toNat < (s.reg a).toNat) ∧
    (condGe t.fl = true ↔ (s.reg b).toNat ≤ (s.reg a).toNat) ∧
    (condLt t.fl = true ↔ (s.reg a).toNat < (s.reg b).toNat) ∧
    (condLe t.fl = true ↔ (s.reg a).toNat ≤ (s.reg b).toNat)

/-- Bits 7..3 of FL have no meaning (R26, R198). -/
def Obligations.UpperFlagBitsAreNeverTested : Prop :=
  ∀ (i : Instr) (s : State) (x y : Byte), x &&& 0b111 = y &&& 0b111 →
    mapState (fun t => t.setFl 0) (exec i (s.setFl x)) = mapState (fun t => t.setFl 0) (exec i (s.setFl y))

/-- INT (R220). -/
def Obligations.IntMarksTheLinePending : Prop :=
  DecodesR 0x52 .int ∧
  ∀ (r : RegNum) (s : State), ∃ t, exec (.int r) s = .next t ∧
    (∀ j : Nat, j < 8 → (t.reg IS).getLsbD j = ((s.reg IS).getLsbD j || decide (j = (s.reg r).toNat))) ∧
    (8 ≤ (s.reg r).toNat → t.reg IS = s.reg IS) ∧
    t.pc = s.pc + 2 ∧ Frame [IS] [] s t

/-- PRN, PRA (R240, R241). -/
def Obligations.PrnAndPraEmitOneEvent : Prop :=
  DecodesR 0x47 .prn ∧
  (∀ (r : RegNum) (s : State), ∃ t, exec (.prn r) s = .next t ∧ t.pc = s.pc + 2 ∧
    Frame [] [] (s.setOut (s.out ++ [.prn (s.reg r)])) t) ∧
  DecodesR 0x48 .pra ∧
  (∀ (r : RegNum) (s : State), ∃ t, exec (.pra r) s = .next t ∧ t.pc = s.pc + 2 ∧
    Frame [] [] (s.setOut (s.out ++ [.pra (s.reg r)])) t) ∧
  ∀ v : Byte, consoleText [.prn v] = (toString v.toNat).toList ++ ['\n'] ∧
    consoleText [.pra v] = [Char.ofNat v.toNat]

/-- HLT (R242); the standing still of a halted core is the model's choice, log entry 7. -/
def Obligations.HaltStopsTheCoreForGood : Prop :=
  DecodesZ 0x01 .hlt ∧
  (∀ s : State, ∃ t, exec .hlt s = .next t ∧ t.pc = s.pc + 1 ∧ t.run = .halted ∧ Frame [] [] (s.setRun .halted) t) ∧
  ∀ (n : Nat) (s : State), s.run = .halted → Sys2Proof.core.run n s = .next s

/-- The writers of the register file (R25). -/
def Obligations.RegistersChangeOnlyByTheirWriters : Prop :=
  (∀ (i : Instr) (s t : State), exec i s = .next t → KeepsRegsBut (writtenRegs i) s t) ∧
  (∀ (i : Line) (s t : State), takeInterrupt i s = .next t → KeepsRegsBut [IS, SP] s t) ∧
  ∀ s : State, KeepsRegsBut [IS] s (poll s) ∧
    ∀ j : Nat, 2 ≤ j → ((poll s).reg IS).getLsbD j = (s.reg IS).getLsbD j

/-- Who writes memory (R51), in one step. -/
def Obligations.MemoryChangesOnlyByItsWriters : Prop :=
  ∀ (s t : State) (a : Nat), s.run = .running → step s = .next t → t.mem.read a ≠ s.mem.read a →
    (a = 0xF4 ∧ s.nextInput.key ≠ none) ∨
    ((trapDue (poll s)).isSome = true ∧ (s.reg SP).toNat - 9 ≤ a ∧ a < (s.reg SP).toNat) ∨
    (trapDue (poll s) = none ∧ ∃ i, InstructionAt i (poll s) ∧ a ∈ storedTo i (poll s))

/-- The writers of FL (R27). -/
def Obligations.FlagsChangeOnlyByCmpAndIret : Prop :=
  ∀ s t : State, step s = .next t → t.fl ≠ s.fl →
    s.run = .running ∧ trapDue (poll s) = none ∧
      ∃ i, InstructionAt i (poll s) ∧ (i = .iret ∨ ∃ a b, i = .cmp a b)

/-- The advance (R97). -/
def Obligations.PcAdvancesByTheLengthOrTransfers : Prop :=
  (∀ (i : Instr) (s t : State), exec i s = .next t → t.pc = (transferTarget i s).getD (s.pc + i.length)) ∧
  ∀ i : Instr, ∃ opcode operands, encode i = opcode :: operands ∧ i.length = operandCount opcode + 1 ∧
    operands.length = operandCount opcode

/-- The output stream (R243). -/
def Obligations.OutputGrowsOnlyByPrnAndPra : Prop :=
  (∀ (i : Instr) (s t : State), exec i s = .next t → t.out = s.out ++ emitted i s) ∧
  (∀ (i : Line) (s t : State), takeInterrupt i s = .next t → t.out = s.out) ∧
  (∀ s : State, (poll s).out = s.out) ∧
  ∀ (out : List OutEvent) (e : OutEvent), consoleText (out ++ [e]) = consoleText out ++ e.text

/-- HLT is the only way a program ends other than a fault (R242, R295). -/
def Obligations.OnlyHltEndsARunWithoutAFault : Prop :=
  ∀ s t : State, s.run = .running → step s = .next t →
    t.run = .running ∨ (t.run = .halted ∧ trapDue (poll s) = none ∧ InstructionAt .hlt (poll s))

/-- Every fault is fatal and terminal (R266); the outcome's form is log entry 8. -/
def Obligations.FaultsAreRecordedAndTerminal : Prop :=
  ∀ (s t : State) (info : FaultInfo), step s = .fault (.fatal info t) →
    t.run = .faulted info ∧ step t = .fault (.fatal info t)

/-- The instruction's own faults and no others (R98 step 7, R261, R262). -/
def Obligations.InstructionsFaultExactlyOnTheirOwnFaults : Prop :=
  ∀ (i : Instr) (s : State),
    (∀ info, FaultsWith (exec i s) info ↔ instructionFault i s = some info) ∧
    (instructionFault i s = none → ∃ t, exec i s = .next t)

/-- The internal fault is unreachable (R128, R264). -/
def Obligations.UnsupportedOperationIsNeverRaised : Prop :=
  (∀ (s t : State) (op : Byte), s.run.notFaulted = true → step s ≠ .fault (.fatal (.unsupportedOperation op) t)) ∧
  ∀ (s : State) (r : Refusal), step s ≠ .refused r

/-- IR and Tacc are not visible to any instruction (R32, R35). The coming inputs and the count of polls, which carry the inputs
of R95, are fields of the model's own, DESIGN CHOICE (log entry 5). -/
def Obligations.InstructionsIgnoreTimerInputsAndIr : Prop :=
  ∀ (i : Instr) (s : State),
    (∀ q : Seconds, exec i (s.setTacc q) = mapState (fun t => t.setTacc q) (exec i s)) ∧
    (∀ l : List CycleInput, exec i (s.setInputs l) = mapState (fun t => t.setInputs l) (exec i s)) ∧
    (∀ k : Nat, exec i (s.setPolled k) = mapState (fun t => t.setPolled k) (exec i s)) ∧
    ∀ (v : Byte) (t : State), exec i s = .next t → exec i (s.setIr v) = .next (t.setIr v)

/-- The memory contract (R52; the read after a write is the one R53 asks for). -/
def Obligations.MemoryReadsBackWhatWasWritten : Prop :=
  ∀ (addr v : Int) (s : State),
    (0 ≤ addr → addr < 256 →
      (∀ k : Byte → Result, memWrite addr v s (fun t => memRead addr t k) = k (u8 v)) ∧
      ∀ (c : Int) (k : Byte → Result), 0 ≤ c → c < 256 → c ≠ addr →
        memWrite addr v s (fun t => memRead c t k) = memRead c s k) ∧
    (addr < 0 ∨ 256 ≤ addr →
      (∀ k, memRead addr s k = raise (.addressingError addr) s) ∧
      ∀ k, memWrite addr v s k = raise (.addressingError addr) s)

/-- The list form of memory is exact for the 256 bytes of R50. The form is the model's choice, DESIGN CHOICE (log entry 23). -/
def Obligations.CanonicalMemoriesThatReadAlikeAreEqual : Prop :=
  ∀ m n : Memory, m.wf = true → n.wf = true → (∀ a, a < 256 → m.read a = n.read a) → m = n

/-- MEM_FILL as data (R7, D9). The list form and the unlisted value are the model's, DESIGN CHOICE (log entries 23 and 3). -/
def Obligations.EveryMemoryContentsHasACanonicalList : Prop :=
  ∀ f : Nat → Byte, (Memory.ofFun f).wf = true ∧ ∀ a, a < 256 → (Memory.ofFun f).read a = f a

/-- A store is seen by the next fetch (R66, R331). -/
def Obligations.StoredByteIsTheNextOpcode : Prop :=
  ∀ (a b : RegNum) (s t : State) (i : Instr) (rest : List Byte), s.run = .running →
    exec (.st a b) s = .next t → t.nextInput.key = none → trapDue (poll t) = none → t.pc = (s.reg a).toNat →
    decode (s.reg b :: bytesFrom t.mem (t.pc + 1)) = .ok (i, rest) →
    step t = exec i ((poll t).setIr (s.reg b))

/-- The invariant is inductive (Machine.State.Inv). PC and the engine states are the spec's (R31, R34); the canonical memory, the
reduced fraction and the unfaulted next state are the model's choices (log entries 23, 6 and 8). -/
def Obligations.EveryStepKeepsTheInvariant : Prop :=
  ∀ s t : State, s.Inv → step s = .next t → t.Inv

/-- The invariant holds at reset (R38, R320), for the values the model names too (log entries 1 to 5). Its forms are the model's
choices (log entries 6, 8 and 23). -/
def Obligations.ResetMeetsTheInvariant : Prop :=
  (∀ p : Launch, p.fill.wf = true → (State.resetWith p).Inv) ∧ State.reset.Inv

/-- The range of PC (R31). -/
def Obligations.PcStaysBelow259 : Prop :=
  (∀ s t : State, s.pc ≤ 258 → step s = .next t → t.pc ≤ 258) ∧
  (∀ (i : Line) (s t : State), takeInterrupt i s = .next t → t.pc ≤ 255) ∧
  ∀ (i : Instr) (s t : State), exec i s = .next t → transferTarget i s ≠ none → t.pc ≤ 255

/-- The reset values, over the open parameters (R38). -/
def Obligations.ResetLeavesTheStatedValues : Prop :=
  ∀ p : Launch,
    (∀ r : RegNum, r ≠ SP →
      (State.resetWith p).reg r = [p.r0, p.r1, p.r2, p.r3, p.r4, p.r5, p.r6].getD r.val 0) ∧
    (State.resetWith p).reg SP = 0xF4 ∧ (State.resetWith p).fl = p.fl ∧ (State.resetWith p).pc = 0 ∧
    (State.resetWith p).ie = true ∧ (State.resetWith p).run = .running ∧
    (State.resetWith p).tacc.toRat = 0 ∧ (State.resetWith p).out = [] ∧ (State.resetWith p).mem = p.fill ∧
    ∀ image : List Int, image.length ≤ 256 → ∃ t, loadImage image (State.resetWith p) = .next t ∧
      ∀ a < 256, t.mem.read a = if a < image.length then u8 (image.getD a 0) else p.fill.read a

/-- The load port (R322). -/
def Obligations.LoadCopiesTheImageOrFaults : Prop :=
  ∀ (image : List Int) (s : State),
    (image.length ≤ 256 → ∃ t, loadImage image s = .next t ∧ t = s.setMem t.mem ∧
      (∀ k < image.length, t.mem.read k = u8 (image.getD k 0)) ∧
      ∀ a, image.length ≤ a → t.mem.read a = s.mem.read a) ∧
    (256 < image.length → FaultsWith (loadImage image s) (.addressingError 256))

/-- The poll is the timer part and the key part on the sampled input (R96 step 1, R271, R272, R274, R275). How the inputs of R95
are sampled, a list and then free values, is the model's choice, DESIGN CHOICE (log entry 5). -/
def Obligations.PollAppliesTheSampledInput : Prop :=
  ∀ s : State,
    (∀ i rest, s.inputs = i :: rest → s.nextInput = i) ∧
    (s.inputs = [] → s.nextInput = ⟨⟨(Config.freeElapsed s.polled).1, (Config.freeElapsed s.polled).2⟩,
      Config.freeKey s.polled⟩) ∧
    (1 ≤ s.tacc.toRat + s.nextInput.elapsed.toRat →
      (poll s).tacc.toRat = s.tacc.toRat + s.nextInput.elapsed.toRat - 1 ∧ ((poll s).reg IS).getLsbD 0 = true) ∧
    (s.tacc.toRat + s.nextInput.elapsed.toRat < 1 →
      (poll s).tacc.toRat = s.tacc.toRat + s.nextInput.elapsed.toRat ∧
      ((poll s).reg IS).getLsbD 0 = (s.reg IS).getLsbD 0) ∧
    (s.nextInput.key = none → (poll s).mem = s.mem ∧ ((poll s).reg IS).getLsbD 1 = (s.reg IS).getLsbD 1) ∧
    (∀ b, s.nextInput.key = some b → (poll s).mem.read 0xF4 = b ∧ ((poll s).reg IS).getLsbD 1 = true) ∧
    (∀ j, 2 ≤ j → ((poll s).reg IS).getLsbD j = (s.reg IS).getLsbD j) ∧
    (poll s).pc = s.pc ∧
    Frame [IS] [0xF4] (((s.setInputs s.inputs.tail).setPolled (s.polled + 1)).setTacc (poll s).tacc) (poll s)
end

