-- ==== Sys2Proof/Laws/Word.lean ====
section
/-! SUPPORT. The wrap to 8 bits: what `u8` does to integers and bytes. -/

namespace Sys2Proof

@[simp] theorem u8_toNat (v : Int) : (u8 v).toNat = (v % 256).toNat := by
  simp [u8]

/-- A byte read as an integer and wrapped again is the byte. -/
@[simp] theorem u8_uint (b : Byte) : u8 (uint b) = b := by
  apply BitVec.eq_of_toNat_eq
  have := b.isLt
  simp only [u8_toNat, uint]
  omega

/-- Wrapping a natural number. -/
theorem u8_natCast (n : Nat) : u8 (n : Int) = BitVec.ofNat 8 n := by
  apply BitVec.eq_of_toNat_eq
  simp only [u8_toNat, BitVec.toNat_ofNat]
  omega

theorem uint_nonneg (b : Byte) : 0 ≤ uint b := Int.natCast_nonneg _

theorem uint_lt (b : Byte) : uint b < 256 := by
  have := b.isLt
  simp only [uint]
  omega

@[simp] theorem uint_toNat (b : Byte) : (uint b).toNat = b.toNat := Int.toNat_natCast _

theorem byte_ne_zero_iff (b : Byte) : b ≠ 0 ↔ 0 < b.toNat := by
  rw [Nat.pos_iff_ne_zero, not_iff_not, ← BitVec.toNat_inj]
  rfl

end Sys2Proof
end

