-- ==== Sys2Proof/Laws/Alu.lean ====
section
/-! SUPPORT. The ALU's results as natural numbers, the flag tests as bits, and the bit INT sets. -/

namespace Sys2Proof.Machine

/-! ## Results -/

theorem aluAdd_toNat (a b : Byte) : (aluAdd a b).toNat = (a.toNat + b.toNat) % 256 := by
  simp only [aluAdd, u8_toNat, uint]; omega

theorem aluSub_toNat (a b : Byte) : (aluSub a b).toNat = (a.toNat + 256 - b.toNat) % 256 := by
  have := b.isLt
  simp only [aluSub, u8_toNat, uint]; omega

theorem aluMul_toNat (a b : Byte) : (aluMul a b).toNat = a.toNat * b.toNat % 256 := by
  simp only [aluMul, u8_toNat, uint, ← Nat.cast_mul]; omega

theorem aluDiv_toNat (a b : Byte) : (aluDiv a b).toNat = a.toNat / b.toNat := by
  have h1 := a.isLt
  have h2 : a.toNat / b.toNat ≤ a.toNat := Nat.div_le_self _ _
  simp only [aluDiv, u8_toNat]
  generalize a.toNat / b.toNat = q at *
  omega

theorem aluMod_toNat (a b : Byte) : (aluMod a b).toNat = a.toNat % b.toNat := by
  have h1 := a.isLt
  have h2 : a.toNat % b.toNat ≤ a.toNat := Nat.mod_le _ _
  simp only [aluMod, u8_toNat]
  generalize a.toNat % b.toNat = q at *
  omega

theorem aluInc_toNat (a : Byte) : (aluInc a).toNat = (a.toNat + 1) % 256 := by
  simp only [aluInc, u8_toNat, uint]; omega

theorem aluDec_toNat (a : Byte) : (aluDec a).toNat = (a.toNat + 255) % 256 := by
  simp only [aluDec, u8_toNat, uint]; omega

theorem aluNot_toNat (a : Byte) : (aluNot a).toNat = 255 - a.toNat := by
  have := a.isLt
  simp only [aluNot, u8_toNat, uint]; omega

theorem aluShl_toNat (a b : Byte) : (aluShl a b).toNat = a.toNat * 2 ^ b.toNat % 256 := by
  simp only [aluShl, u8_toNat]
  generalize a.toNat * 2 ^ b.toNat = q
  omega

theorem aluShr_toNat (a b : Byte) : (aluShr a b).toNat = a.toNat / 2 ^ b.toNat := by
  have h1 := a.isLt
  have h2 : a.toNat / 2 ^ b.toNat ≤ a.toNat := Nat.div_le_self _ _
  simp only [aluShr, u8_toNat]
  generalize a.toNat / 2 ^ b.toNat = q at *
  omega

/-! ## Flags -/

theorem compareFlags_eq (a b : Byte) :
    compareFlags a b = if a.toNat < b.toNat then 4 else if b.toNat < a.toNat then 2 else 1 := rfl

theorem condEq_bit : ∀ fl : Byte, condEq fl = fl.getLsbD 0 := by decide +kernel

theorem condNe_bit : ∀ fl : Byte, condNe fl = !fl.getLsbD 0 := by decide +kernel

theorem condGt_bit : ∀ fl : Byte, condGt fl = fl.getLsbD 1 := by decide +kernel

theorem condGe_bit : ∀ fl : Byte, condGe fl = (fl.getLsbD 1 || fl.getLsbD 0) := by decide +kernel

theorem condLt_bit : ∀ fl : Byte, condLt fl = fl.getLsbD 2 := by decide +kernel

theorem condLe_bit : ∀ fl : Byte, condLe fl = (fl.getLsbD 2 || fl.getLsbD 0) := by decide +kernel

/-! ## The bit INT sets -/

/-- INT's new IS, bit by bit: the old bits and bit `line`, so nothing new when `line` is 8 or more (R220). -/
theorem raiseLine_bit (is line : Byte) (j : Nat) :
    (raiseLine is line).getLsbD j = (is.getLsbD j || (decide (j < 8) && decide (j = line.toNat))) := by
  rw [raiseLine, u8_natCast, BitVec.getLsbD_ofNat, Nat.testBit_or, Nat.one_shiftLeft, Nat.testBit_two_pow,
    BitVec.testBit_toNat]
  by_cases hj : j < 8
  · simp [hj, eq_comm]
  · simp [hj, BitVec.getLsbD_of_ge _ _ (Nat.le_of_not_lt hj)]

end Sys2Proof.Machine
end

