-- ==== Sys2Proof/Laws/Decode.lean ====
section
/-! SUPPORT. The register operand bytes, and the opcode map: one row a byte, its operand count in bits 7:6. -/

namespace Sys2Proof

@[simp] theorem registerByte_toNat (r : RegNum) : (registerByte r).toNat = r.val := by
  simp only [registerByte, BitVec.toNat_ofNat]; omega

@[simp] theorem registerOf_registerByte (r : RegNum) : registerOf (registerByte r) = .ok r := by
  unfold registerOf
  rw [dif_pos (by rw [registerByte_toNat]; exact r.isLt)]
  simp only [registerByte_toNat]

theorem registerOf_invalid {x : Byte} (h : 8 ≤ x.toNat) : registerOf x = .error (.invalidRegister x) := by
  unfold registerOf
  rw [dif_neg (by omega)]

/-- Everything an accepted register byte can be. -/
theorem registerOf_ok {x : Byte} {r : RegNum} (h : registerOf x = .ok r) : x = registerByte r := by
  unfold registerOf at h
  split_ifs at h with hx
  obtain rfl := Except.ok.inj h
  apply BitVec.eq_of_toNat_eq
  rw [registerByte_toNat]

/-- How many operand bytes a row's shape takes. -/
def Build.operandBytes : Build → Nat
  | .z _ => 0
  | .r _ => 1
  | .rr _ => 2
  | .ri _ => 2

/-- No two rows share an opcode (R86). -/
theorem opcodeRows_nodup : (opcodeRows.map Prod.fst).Nodup := by decide

/-- Every row's operand count is bits 7:6 of its opcode (R81). -/
theorem opcodeRows_operandCount : ∀ row ∈ opcodeRows, operandCount row.1 = row.2.operandBytes := by
  simp [opcodeRows, operandCount, Build.operandBytes]

/-- The decoder's map and the format table know the same opcodes. -/
theorem findRow_isSome : ∀ opcode : Byte, (findRow opcode opcodeRows).isSome = (opcodeFormat opcode).isSome := by
  decide +kernel

/-- A row that is found is a row of the table. -/
theorem findRow_mem {opcode : Byte} {f : Build} {rows : List (Byte × Build)} (h : findRow opcode rows = some f) :
    (opcode, f) ∈ rows := by
  induction rows with
  | nil => simp [findRow] at h
  | cons row rows ih =>
    obtain ⟨b, g⟩ := row
    unfold findRow at h
    split_ifs at h with hb
    · simp only [Option.some.injEq] at h
      subst hb h
      exact List.mem_cons_self
    · exact List.mem_cons_of_mem _ (ih h)

/-- Every row found has the operand count of its opcode, so bits 7:6 = 11 finds none (R88). -/
theorem findRow_operandCount {opcode : Byte} {f : Build} (h : findRow opcode opcodeRows = some f) :
    operandCount opcode = f.operandBytes :=
  opcodeRows_operandCount _ (findRow_mem h)

/-- The format a row's shape stands for. -/
def Build.format : Build → Format
  | .z _ => .z
  | .r _ => .r
  | .rr _ => .rr
  | .ri _ => .ri

theorem Build.operandBytes_ne_three (f : Build) : f.operandBytes ≠ 3 := by
  cases f <;> simp [Build.operandBytes]

/-- What the encoder writes for the instructions a row builds: the row's opcode, then the operands in order. -/
def Build.Encodes (opcode : Byte) : Build → Prop
  | .z i => encode i = [opcode]
  | .r f => ∀ r, encode (f r) = [opcode, registerByte r]
  | .rr f => ∀ a b, encode (f a b) = [opcode, registerByte a, registerByte b]
  | .ri f => ∀ a v, encode (f a v) = [opcode, registerByte a, v]

/-- A row agrees with the format table and the encoder. -/
def RowAgrees (row : Byte × Build) : Prop := opcodeFormat row.1 = some row.2.format ∧ row.2.Encodes row.1

/-- The decoder's table, the format table and the encoder agree row by row (R82, R86). -/
theorem opcodeRows_agree : ∀ row ∈ opcodeRows, RowAgrees row := by
  simp only [opcodeRows, List.forall_mem_append, List.forall_mem_cons]
  repeat' apply And.intro
  all_goals first
    | rfl
    | exact fun _ => rfl
    | exact fun _ _ => rfl
    | exact fun _ h => absurd h List.not_mem_nil

/-- The same of the row found for an opcode. -/
theorem findRow_agrees {opcode : Byte} {f : Build} (h : findRow opcode opcodeRows = some f) :
    opcodeFormat opcode = some f.format ∧ f.Encodes opcode :=
  opcodeRows_agree _ (findRow_mem h)

theorem operandCount_le (opcode : Byte) : operandCount opcode ≤ 3 := by
  have := opcode.isLt
  unfold operandCount
  omega

/-- An opcode that is no row of the table is rejected, whatever the operands (R87). -/
theorem decodeFetched_unknown {opcode : Byte} (h : opcodeFormat opcode = none) (operands : List Byte) :
    decodeFetched opcode operands = .error .unsupported := by
  have hf : findRow opcode opcodeRows = none := by
    have := findRow_isSome opcode
    rw [h] at this
    simpa using this
  simp only [decodeFetched, hf]

/-- Everything the building of an instruction from operand bytes can answer. -/
theorem Build.apply_ok {opcode : Byte} {f : Build} (he : f.Encodes opcode) {operands : List Byte} {i : Instr}
    (h : f.apply operands = .ok i) : encode i = opcode :: operands ∧ operands.length = f.operandBytes := by
  cases f with
  | z j =>
    match operands, h with
    | [], h =>
      obtain rfl := Except.ok.inj h
      exact ⟨he, rfl⟩
  | r g =>
    match operands, h with
    | [x], h =>
      simp only [Build.apply] at h
      split at h
      · obtain rfl := Except.ok.inj h
        rw [registerOf_ok ‹registerOf x = _›]
        exact ⟨he _, rfl⟩
      · cases h
  | rr g =>
    match operands, h with
    | [x, y], h =>
      simp only [Build.apply] at h
      split at h
      · split at h
        · obtain rfl := Except.ok.inj h
          rw [registerOf_ok ‹registerOf x = _›, registerOf_ok ‹registerOf y = _›]
          exact ⟨he _ _, rfl⟩
        · cases h
      · cases h
  | ri g =>
    match operands, h with
    | [x, y], h =>
      simp only [Build.apply] at h
      split at h
      · obtain rfl := Except.ok.inj h
        rw [registerOf_ok ‹registerOf x = _›]
        exact ⟨he _ _, rfl⟩
      · cases h

/-- Everything an accepted instruction can be: its encoding is the opcode followed by the operands, as many as bits 7:6
count. -/
theorem decodeFetched_ok {opcode : Byte} {operands : List Byte} {i : Instr} (h : decodeFetched opcode operands = .ok i) :
    encode i = opcode :: operands ∧ operands.length = operandCount opcode ∧ operandCount opcode ≠ 3 := by
  unfold decodeFetched at h
  cases hf : findRow opcode opcodeRows with
  | none => rw [hf] at h; cases h
  | some f =>
    rw [hf] at h
    have hc := findRow_operandCount hf
    obtain ⟨h1, h2⟩ := Build.apply_ok (findRow_agrees hf).2 h
    exact ⟨h1, h2.trans hc.symm, hc ▸ f.operandBytes_ne_three⟩

/-- Bytes that hold an opcode's operands decode as the fetched instruction does. -/
theorem decode_append {opcode : Byte} {operands : List Byte} (hc : operandCount opcode ≠ 3)
    (hl : operands.length = operandCount opcode) (rest : List Byte) :
    decode (opcode :: (operands ++ rest)) =
      match decodeFetched opcode operands with
      | .ok i => .ok (i, rest)
      | .error e => .error (.rejected e) := by
  have h1 : ¬ (operands ++ rest).length < operandCount opcode := by rw [List.length_append]; omega
  cases h : decodeFetched opcode operands <;>
    simp only [decode, if_neg hc, if_neg h1, List.take_left' hl, List.drop_left' hl, h]

end Sys2Proof
end

