-- ==== Sys2Proof/Laws/Encoding.lean ====
section
/-! SUPPORT. What a row of the opcode table says about decoding, one lemma per format. -/

namespace Sys2Proof.Machine

theorem decodesZ_of_row {opcode : Byte} {i : Instr} (h : findRow opcode opcodeRows = some (.z i)) :
    DecodesZ opcode i := by
  have hc : operandCount opcode = 0 := findRow_operandCount h
  intro rest
  simp [decode, hc, decodeFetched, h, Build.apply]

theorem decodesR_of_row {opcode : Byte} {f : RegNum → Instr} (h : findRow opcode opcodeRows = some (.r f)) :
    DecodesR opcode f := by
  have hc : operandCount opcode = 1 := findRow_operandCount h
  refine ⟨fun r rest => ?_, fun x rest hx => ?_⟩
  · simp [decode, hc, decodeFetched, h, Build.apply]
  · simp [decode, hc, decodeFetched, h, Build.apply, registerOf_invalid hx]

theorem decodesRR_of_row {opcode : Byte} {f : RegNum → RegNum → Instr}
    (h : findRow opcode opcodeRows = some (.rr f)) : DecodesRR opcode f := by
  have hc : operandCount opcode = 2 := findRow_operandCount h
  refine ⟨fun a b rest => ?_, fun x y rest hx => ?_, fun a y rest hy => ?_⟩
  · simp [decode, hc, decodeFetched, h, Build.apply]
  · simp [decode, hc, decodeFetched, h, Build.apply, registerOf_invalid hx]
  · simp [decode, hc, decodeFetched, h, Build.apply, registerOf_invalid hy]

theorem decodesRI_of_row {opcode : Byte} {f : RegNum → Byte → Instr}
    (h : findRow opcode opcodeRows = some (.ri f)) : DecodesRI opcode f := by
  have hc : operandCount opcode = 2 := findRow_operandCount h
  refine ⟨fun a imm rest => ?_, fun x imm rest hx => ?_⟩
  · simp [decode, hc, decodeFetched, h, Build.apply]
  · simp [decode, hc, decodeFetched, h, Build.apply, registerOf_invalid hx]

end Sys2Proof.Machine
end

