-- ==== Sys2Proof/Laws/Memory.lean ====
section
/-! SUPPORT. Memory as a list: read after write, and that a write keeps the canonical form. -/

namespace Sys2Proof.Machine

@[simp] theorem Memory.read_nil (a : Nat) : Memory.read [] a = Config.memFill := rfl

theorem Memory.read_cons (b : Nat) (w : Byte) (m : Memory) (a : Nat) :
    Memory.read ((b, w) :: m) a = if b = a then w else Memory.read m a := rfl

/-! ## Read after write -/

theorem Memory.read_erase (m : Memory) (a c : Nat) :
    Memory.read (Memory.erase m a) c = if c = a then Config.memFill else Memory.read m c := by
  induction m with
  | nil => simp [Memory.erase]
  | cons e m ih =>
    obtain ⟨b, w⟩ := e
    unfold Memory.erase at ih ⊢
    by_cases hba : b = a
    · subst hba
      simp only [List.filter_cons, ne_eq, not_true_eq_false, decide_false, Bool.false_eq_true, if_false]
      rw [ih, Memory.read_cons]
      split_ifs <;> first | rfl | omega
    · simp only [List.filter_cons, ne_eq, hba, not_false_eq_true, decide_true, if_true]
      rw [Memory.read_cons, Memory.read_cons, ih]
      split_ifs <;> first | rfl | omega

theorem Memory.read_insert (m : Memory) (a c : Nat) (v : Byte) (h : c ≠ a) :
    Memory.read (Memory.insert m a v) c = Memory.read m c := by
  induction m with
  | nil => simp [Memory.insert, Memory.read_cons, h.symm]
  | cons e m ih =>
    obtain ⟨b, w⟩ := e
    unfold Memory.insert
    split_ifs
    · rw [Memory.read_cons, if_neg h.symm]
    · rw [Memory.read_cons, Memory.read_cons, ih]

theorem Memory.read_insert_self (m : Memory) (a : Nat) (v : Byte) :
    Memory.read (Memory.insert (Memory.erase m a) a v) a = v := by
  induction m with
  | nil => simp [Memory.erase, Memory.insert, Memory.read_cons]
  | cons e m ih =>
    obtain ⟨b, w⟩ := e
    unfold Memory.erase at ih ⊢
    by_cases hba : b = a
    · simpa [hba] using ih
    · simp only [List.filter_cons, ne_eq, hba, not_false_eq_true, decide_true, if_true, Memory.insert]
      split_ifs
      · simp [Memory.read_cons]
      · rw [Memory.read_cons, if_neg hba, ih]

/-- Reading after a write: the byte written there, every other byte as before (R53). -/
theorem Memory.read_write (m : Memory) (a c : Nat) (v : Byte) :
    Memory.read (Memory.write m a v) c = if c = a then v else Memory.read m c := by
  unfold Memory.write
  by_cases hca : c = a
  · subst hca
    rw [if_pos rfl]
    split_ifs with hv
    · simp [Memory.read_erase, hv]
    · exact Memory.read_insert_self m c v
  · rw [if_neg hca]
    split_ifs with hv
    · simp [Memory.read_erase, hca]
    · rw [Memory.read_insert _ _ _ _ hca]
      simp [Memory.read_erase, hca]

@[simp] theorem Memory.read_write_self (m : Memory) (a : Nat) (v : Byte) :
    Memory.read (Memory.write m a v) a = v := by
  simp [Memory.read_write]

@[simp] theorem Memory.read_write_ne (m : Memory) {a c : Nat} (v : Byte) (h : c ≠ a) :
    Memory.read (Memory.write m a v) c = Memory.read m c := by
  simp [Memory.read_write, h]

/-! ## The canonical form -/

theorem Memory.wfFrom_cons (low a : Nat) (v : Byte) (m : Memory) :
    Memory.wfFrom low ((a, v) :: m) = true ↔
      low ≤ a ∧ a < Config.memSize ∧ v ≠ Config.memFill ∧ Memory.wfFrom (a + 1) m = true := by
  simp [Memory.wfFrom, and_assoc]

theorem Memory.wfFrom_mono {low low' : Nat} {m : Memory} (h : low' ≤ low) (hm : Memory.wfFrom low m = true) :
    Memory.wfFrom low' m = true := by
  cases m with
  | nil => rfl
  | cons c m =>
    obtain ⟨h1, h2⟩ := (Memory.wfFrom_cons _ _ _ _).1 hm
    exact (Memory.wfFrom_cons _ _ _ _).2 ⟨h.trans h1, h2⟩

/-- Below its lowest entry a canonical memory is unlisted. -/
theorem Memory.read_below {low : Nat} {m : Memory} (hm : Memory.wfFrom low m = true) {a : Nat} (h : a < low) :
    Memory.read m a = Config.memFill := by
  induction m generalizing low with
  | nil => rfl
  | cons c m ih =>
    obtain ⟨h1, -, -, h4⟩ := (Memory.wfFrom_cons _ _ _ _).1 hm
    rw [Memory.read_cons, if_neg (by omega)]
    exact ih h4 (by omega)

theorem Memory.wfFrom_erase {low : Nat} {m : Memory} (hm : Memory.wfFrom low m = true) (a : Nat) :
    Memory.wfFrom low (Memory.erase m a) = true := by
  induction m generalizing low with
  | nil => rfl
  | cons e m ih =>
    obtain ⟨b, w⟩ := e
    obtain ⟨h1, h2, h3, h4⟩ := (Memory.wfFrom_cons _ _ _ _).1 hm
    unfold Memory.erase at ih ⊢
    by_cases hba : b = a
    · simpa [hba] using Memory.wfFrom_mono (by omega) (ih h4)
    · simpa [hba] using (Memory.wfFrom_cons _ _ _ _).2 ⟨h1, h2, h3, ih h4⟩

theorem Memory.wfFrom_insert {low : Nat} {m : Memory} (hm : Memory.wfFrom low (Memory.erase m a) = true) {v : Byte}
    (hv : v ≠ Config.memFill) (hlow : low ≤ a) (ha : a < Config.memSize) :
    Memory.wfFrom low (Memory.insert (Memory.erase m a) a v) = true := by
  induction m generalizing low with
  | nil => simp [Memory.erase, Memory.insert, Memory.wfFrom, hlow, ha, hv]
  | cons e m ih =>
    obtain ⟨b, w⟩ := e
    by_cases hba : b = a
    · have he : Memory.erase ((b, w) :: m) a = Memory.erase m a := by simp [Memory.erase, hba]
      rw [he] at hm ⊢
      exact ih hm hlow
    · have he : Memory.erase ((b, w) :: m) a = (b, w) :: Memory.erase m a := by simp [Memory.erase, hba]
      rw [he] at hm ⊢
      obtain ⟨h1, h2, h3, h4⟩ := (Memory.wfFrom_cons _ _ _ _).1 hm
      unfold Memory.insert
      split_ifs with hab
      · exact (Memory.wfFrom_cons _ _ _ _).2 ⟨hlow, ha, hv, (Memory.wfFrom_cons _ _ _ _).2 ⟨hab, h2, h3, h4⟩⟩
      · exact (Memory.wfFrom_cons _ _ _ _).2 ⟨h1, h2, h3, ih h4 (by omega)⟩

/-- A write inside the address space keeps the canonical form. -/
theorem Memory.wf_write {m : Memory} (hm : m.wf = true) {a : Nat} (v : Byte) (ha : a < Config.memSize) :
    Memory.wf (Memory.write m a v) = true := by
  unfold Memory.wf Memory.write at *
  split_ifs with hv
  · exact Memory.wfFrom_erase hm a
  · exact Memory.wfFrom_insert (Memory.wfFrom_erase hm a) hv (Nat.zero_le a) ha

/-- The empty memory is canonical. -/
@[simp] theorem Memory.wf_nil : Memory.wf [] = true := rfl

/-- A listed address is inside the address space. -/
theorem Memory.read_outside {m : Memory} (hm : m.wf = true) {a : Nat} (ha : Config.memSize ≤ a) :
    Memory.read m a = Config.memFill := by
  unfold Memory.wf at hm
  generalize 0 = low at hm
  induction m generalizing low with
  | nil => rfl
  | cons c m ih =>
    obtain ⟨-, h2, -, h4⟩ := (Memory.wfFrom_cons _ _ _ _).1 hm
    rw [Memory.read_cons, if_neg (by omega)]
    exact ih _ h4

end Sys2Proof.Machine
end

