-- ==== Sys2Proof/Laws/State.lean ====
section
/-! SUPPORT. One lemma per field per update of State, so that no proof unfolds a record update. -/

namespace Sys2Proof.Machine

/-! ## Registers -/

@[simp] theorem RegFile.get_set_self (f : RegFile) (r : RegNum) (v : Byte) : (f.set r v).get r = v := by
  fin_cases r <;> rfl

theorem RegFile.get_set_ne (f : RegFile) {r q : RegNum} (v : Byte) (h : q ≠ r) : (f.set r v).get q = f.get q := by
  fin_cases r <;> fin_cases q <;> first | rfl | exact absurd rfl h

@[simp] theorem State.reg_setReg_self (s : State) (r : RegNum) (v : Byte) : (s.setReg r v).reg r = v :=
  RegFile.get_set_self _ _ _

@[simp] theorem State.reg_setReg_ne (s : State) {r q : RegNum} (v : Byte) (h : q ≠ r) :
    (s.setReg r v).reg q = s.reg q :=
  RegFile.get_set_ne _ _ h

/-- Reading any register after a register write. -/
theorem State.reg_setReg (s : State) (r q : RegNum) (v : Byte) :
    (s.setReg r v).reg q = if q = r then v else s.reg q := by
  by_cases h : q = r
  · simp [h]
  · simp [h]

/-- Two register files that read alike are equal. -/
theorem RegFile.ext_get {f g : RegFile} (h : ∀ r, f.get r = g.get r) : f = g := by
  cases f; cases g
  simpa [RegFile.get] using
    And.intro (h 0) (And.intro (h 1) (And.intro (h 2) (And.intro (h 3)
      (And.intro (h 4) (And.intro (h 5) (And.intro (h 6) (h 7)))))))

/-- Two states that agree on every register and every other field are equal. -/
theorem State.ext_reg {s t : State} (hr : ∀ r, s.reg r = t.reg r) (hfl : s.fl = t.fl) (hpc : s.pc = t.pc)
    (hir : s.ir = t.ir) (hie : s.ie = t.ie) (hrun : s.run = t.run) (htacc : s.tacc = t.tacc) (hmem : s.mem = t.mem)
    (hout : s.out = t.out) (hin : s.inputs = t.inputs)
    (hpolled : s.polled = t.polled) : s = t := by
  have hregs : s.regs = t.regs := RegFile.ext_get hr
  cases s; cases t; simp_all

/-! ## A register write leaves every other field -/

@[simp] theorem State.setReg_fl (s : State) (r : RegNum) (v : Byte) : (s.setReg r v).fl = s.fl := rfl
@[simp] theorem State.setReg_pc (s : State) (r : RegNum) (v : Byte) : (s.setReg r v).pc = s.pc := rfl
@[simp] theorem State.setReg_ir (s : State) (r : RegNum) (v : Byte) : (s.setReg r v).ir = s.ir := rfl
@[simp] theorem State.setReg_ie (s : State) (r : RegNum) (v : Byte) : (s.setReg r v).ie = s.ie := rfl
@[simp] theorem State.setReg_run (s : State) (r : RegNum) (v : Byte) : (s.setReg r v).run = s.run := rfl
@[simp] theorem State.setReg_tacc (s : State) (r : RegNum) (v : Byte) : (s.setReg r v).tacc = s.tacc := rfl
@[simp] theorem State.setReg_mem (s : State) (r : RegNum) (v : Byte) : (s.setReg r v).mem = s.mem := rfl
@[simp] theorem State.setReg_out (s : State) (r : RegNum) (v : Byte) : (s.setReg r v).out = s.out := rfl
@[simp] theorem State.setReg_inputs (s : State) (r : RegNum) (v : Byte) : (s.setReg r v).inputs = s.inputs := rfl
@[simp] theorem State.setReg_polled (s : State) (r : RegNum) (v : Byte) : (s.setReg r v).polled = s.polled := rfl

/-! ## setFl -/

@[simp] theorem State.setFl_reg (s : State) (v : Byte) (r : RegNum) : (s.setFl v).reg r = s.reg r := rfl
@[simp] theorem State.setFl_fl (s : State) (v : Byte) : (s.setFl v).fl = v := rfl
@[simp] theorem State.setFl_pc (s : State) (v : Byte) : (s.setFl v).pc = s.pc := rfl
@[simp] theorem State.setFl_ir (s : State) (v : Byte) : (s.setFl v).ir = s.ir := rfl
@[simp] theorem State.setFl_ie (s : State) (v : Byte) : (s.setFl v).ie = s.ie := rfl
@[simp] theorem State.setFl_run (s : State) (v : Byte) : (s.setFl v).run = s.run := rfl
@[simp] theorem State.setFl_tacc (s : State) (v : Byte) : (s.setFl v).tacc = s.tacc := rfl
@[simp] theorem State.setFl_mem (s : State) (v : Byte) : (s.setFl v).mem = s.mem := rfl
@[simp] theorem State.setFl_out (s : State) (v : Byte) : (s.setFl v).out = s.out := rfl
@[simp] theorem State.setFl_inputs (s : State) (v : Byte) : (s.setFl v).inputs = s.inputs := rfl
@[simp] theorem State.setFl_polled (s : State) (v : Byte) : (s.setFl v).polled = s.polled := rfl

/-! ## setPc -/

@[simp] theorem State.setPc_reg (s : State) (v : Nat) (r : RegNum) : (s.setPc v).reg r = s.reg r := rfl
@[simp] theorem State.setPc_fl (s : State) (v : Nat) : (s.setPc v).fl = s.fl := rfl
@[simp] theorem State.setPc_pc (s : State) (v : Nat) : (s.setPc v).pc = v := rfl
@[simp] theorem State.setPc_ir (s : State) (v : Nat) : (s.setPc v).ir = s.ir := rfl
@[simp] theorem State.setPc_ie (s : State) (v : Nat) : (s.setPc v).ie = s.ie := rfl
@[simp] theorem State.setPc_run (s : State) (v : Nat) : (s.setPc v).run = s.run := rfl
@[simp] theorem State.setPc_tacc (s : State) (v : Nat) : (s.setPc v).tacc = s.tacc := rfl
@[simp] theorem State.setPc_mem (s : State) (v : Nat) : (s.setPc v).mem = s.mem := rfl
@[simp] theorem State.setPc_out (s : State) (v : Nat) : (s.setPc v).out = s.out := rfl
@[simp] theorem State.setPc_inputs (s : State) (v : Nat) : (s.setPc v).inputs = s.inputs := rfl
@[simp] theorem State.setPc_polled (s : State) (v : Nat) : (s.setPc v).polled = s.polled := rfl

/-! ## setIr -/

@[simp] theorem State.setIr_reg (s : State) (v : Byte) (r : RegNum) : (s.setIr v).reg r = s.reg r := rfl
@[simp] theorem State.setIr_fl (s : State) (v : Byte) : (s.setIr v).fl = s.fl := rfl
@[simp] theorem State.setIr_pc (s : State) (v : Byte) : (s.setIr v).pc = s.pc := rfl
@[simp] theorem State.setIr_ir (s : State) (v : Byte) : (s.setIr v).ir = v := rfl
@[simp] theorem State.setIr_ie (s : State) (v : Byte) : (s.setIr v).ie = s.ie := rfl
@[simp] theorem State.setIr_run (s : State) (v : Byte) : (s.setIr v).run = s.run := rfl
@[simp] theorem State.setIr_tacc (s : State) (v : Byte) : (s.setIr v).tacc = s.tacc := rfl
@[simp] theorem State.setIr_mem (s : State) (v : Byte) : (s.setIr v).mem = s.mem := rfl
@[simp] theorem State.setIr_out (s : State) (v : Byte) : (s.setIr v).out = s.out := rfl
@[simp] theorem State.setIr_inputs (s : State) (v : Byte) : (s.setIr v).inputs = s.inputs := rfl
@[simp] theorem State.setIr_polled (s : State) (v : Byte) : (s.setIr v).polled = s.polled := rfl

/-! ## setIe -/

@[simp] theorem State.setIe_reg (s : State) (v : Bool) (r : RegNum) : (s.setIe v).reg r = s.reg r := rfl
@[simp] theorem State.setIe_fl (s : State) (v : Bool) : (s.setIe v).fl = s.fl := rfl
@[simp] theorem State.setIe_pc (s : State) (v : Bool) : (s.setIe v).pc = s.pc := rfl
@[simp] theorem State.setIe_ir (s : State) (v : Bool) : (s.setIe v).ir = s.ir := rfl
@[simp] theorem State.setIe_ie (s : State) (v : Bool) : (s.setIe v).ie = v := rfl
@[simp] theorem State.setIe_run (s : State) (v : Bool) : (s.setIe v).run = s.run := rfl
@[simp] theorem State.setIe_tacc (s : State) (v : Bool) : (s.setIe v).tacc = s.tacc := rfl
@[simp] theorem State.setIe_mem (s : State) (v : Bool) : (s.setIe v).mem = s.mem := rfl
@[simp] theorem State.setIe_out (s : State) (v : Bool) : (s.setIe v).out = s.out := rfl
@[simp] theorem State.setIe_inputs (s : State) (v : Bool) : (s.setIe v).inputs = s.inputs := rfl
@[simp] theorem State.setIe_polled (s : State) (v : Bool) : (s.setIe v).polled = s.polled := rfl

/-! ## setRun -/

@[simp] theorem State.setRun_reg (s : State) (v : RunState) (r : RegNum) : (s.setRun v).reg r = s.reg r := rfl
@[simp] theorem State.setRun_fl (s : State) (v : RunState) : (s.setRun v).fl = s.fl := rfl
@[simp] theorem State.setRun_pc (s : State) (v : RunState) : (s.setRun v).pc = s.pc := rfl
@[simp] theorem State.setRun_ir (s : State) (v : RunState) : (s.setRun v).ir = s.ir := rfl
@[simp] theorem State.setRun_ie (s : State) (v : RunState) : (s.setRun v).ie = s.ie := rfl
@[simp] theorem State.setRun_run (s : State) (v : RunState) : (s.setRun v).run = v := rfl
@[simp] theorem State.setRun_tacc (s : State) (v : RunState) : (s.setRun v).tacc = s.tacc := rfl
@[simp] theorem State.setRun_mem (s : State) (v : RunState) : (s.setRun v).mem = s.mem := rfl
@[simp] theorem State.setRun_out (s : State) (v : RunState) : (s.setRun v).out = s.out := rfl
@[simp] theorem State.setRun_inputs (s : State) (v : RunState) : (s.setRun v).inputs = s.inputs := rfl
@[simp] theorem State.setRun_polled (s : State) (v : RunState) : (s.setRun v).polled = s.polled := rfl

/-! ## setTacc -/

@[simp] theorem State.setTacc_reg (s : State) (v : Seconds) (r : RegNum) : (s.setTacc v).reg r = s.reg r := rfl
@[simp] theorem State.setTacc_fl (s : State) (v : Seconds) : (s.setTacc v).fl = s.fl := rfl
@[simp] theorem State.setTacc_pc (s : State) (v : Seconds) : (s.setTacc v).pc = s.pc := rfl
@[simp] theorem State.setTacc_ir (s : State) (v : Seconds) : (s.setTacc v).ir = s.ir := rfl
@[simp] theorem State.setTacc_ie (s : State) (v : Seconds) : (s.setTacc v).ie = s.ie := rfl
@[simp] theorem State.setTacc_run (s : State) (v : Seconds) : (s.setTacc v).run = s.run := rfl
@[simp] theorem State.setTacc_tacc (s : State) (v : Seconds) : (s.setTacc v).tacc = v := rfl
@[simp] theorem State.setTacc_mem (s : State) (v : Seconds) : (s.setTacc v).mem = s.mem := rfl
@[simp] theorem State.setTacc_out (s : State) (v : Seconds) : (s.setTacc v).out = s.out := rfl
@[simp] theorem State.setTacc_inputs (s : State) (v : Seconds) : (s.setTacc v).inputs = s.inputs := rfl
@[simp] theorem State.setTacc_polled (s : State) (v : Seconds) : (s.setTacc v).polled = s.polled := rfl

/-! ## setMem -/

@[simp] theorem State.setMem_reg (s : State) (v : Memory) (r : RegNum) : (s.setMem v).reg r = s.reg r := rfl
@[simp] theorem State.setMem_fl (s : State) (v : Memory) : (s.setMem v).fl = s.fl := rfl
@[simp] theorem State.setMem_pc (s : State) (v : Memory) : (s.setMem v).pc = s.pc := rfl
@[simp] theorem State.setMem_ir (s : State) (v : Memory) : (s.setMem v).ir = s.ir := rfl
@[simp] theorem State.setMem_ie (s : State) (v : Memory) : (s.setMem v).ie = s.ie := rfl
@[simp] theorem State.setMem_run (s : State) (v : Memory) : (s.setMem v).run = s.run := rfl
@[simp] theorem State.setMem_tacc (s : State) (v : Memory) : (s.setMem v).tacc = s.tacc := rfl
@[simp] theorem State.setMem_mem (s : State) (v : Memory) : (s.setMem v).mem = v := rfl
@[simp] theorem State.setMem_out (s : State) (v : Memory) : (s.setMem v).out = s.out := rfl
@[simp] theorem State.setMem_inputs (s : State) (v : Memory) : (s.setMem v).inputs = s.inputs := rfl
@[simp] theorem State.setMem_polled (s : State) (v : Memory) : (s.setMem v).polled = s.polled := rfl

/-! ## setOut -/

@[simp] theorem State.setOut_reg (s : State) (v : List OutEvent) (r : RegNum) : (s.setOut v).reg r = s.reg r := rfl
@[simp] theorem State.setOut_fl (s : State) (v : List OutEvent) : (s.setOut v).fl = s.fl := rfl
@[simp] theorem State.setOut_pc (s : State) (v : List OutEvent) : (s.setOut v).pc = s.pc := rfl
@[simp] theorem State.setOut_ir (s : State) (v : List OutEvent) : (s.setOut v).ir = s.ir := rfl
@[simp] theorem State.setOut_ie (s : State) (v : List OutEvent) : (s.setOut v).ie = s.ie := rfl
@[simp] theorem State.setOut_run (s : State) (v : List OutEvent) : (s.setOut v).run = s.run := rfl
@[simp] theorem State.setOut_tacc (s : State) (v : List OutEvent) : (s.setOut v).tacc = s.tacc := rfl
@[simp] theorem State.setOut_mem (s : State) (v : List OutEvent) : (s.setOut v).mem = s.mem := rfl
@[simp] theorem State.setOut_out (s : State) (v : List OutEvent) : (s.setOut v).out = v := rfl
@[simp] theorem State.setOut_inputs (s : State) (v : List OutEvent) : (s.setOut v).inputs = s.inputs := rfl
@[simp] theorem State.setOut_polled (s : State) (v : List OutEvent) : (s.setOut v).polled = s.polled := rfl

/-! ## setInputs -/

@[simp] theorem State.setInputs_reg (s : State) (v : List CycleInput) (r : RegNum) : (s.setInputs v).reg r = s.reg r := rfl
@[simp] theorem State.setInputs_fl (s : State) (v : List CycleInput) : (s.setInputs v).fl = s.fl := rfl
@[simp] theorem State.setInputs_pc (s : State) (v : List CycleInput) : (s.setInputs v).pc = s.pc := rfl
@[simp] theorem State.setInputs_ir (s : State) (v : List CycleInput) : (s.setInputs v).ir = s.ir := rfl
@[simp] theorem State.setInputs_ie (s : State) (v : List CycleInput) : (s.setInputs v).ie = s.ie := rfl
@[simp] theorem State.setInputs_run (s : State) (v : List CycleInput) : (s.setInputs v).run = s.run := rfl
@[simp] theorem State.setInputs_tacc (s : State) (v : List CycleInput) : (s.setInputs v).tacc = s.tacc := rfl
@[simp] theorem State.setInputs_mem (s : State) (v : List CycleInput) : (s.setInputs v).mem = s.mem := rfl
@[simp] theorem State.setInputs_out (s : State) (v : List CycleInput) : (s.setInputs v).out = s.out := rfl
@[simp] theorem State.setInputs_inputs (s : State) (v : List CycleInput) : (s.setInputs v).inputs = v := rfl
@[simp] theorem State.setInputs_polled (s : State) (v : List CycleInput) : (s.setInputs v).polled = s.polled := rfl

/-! ## setPolled -/

@[simp] theorem State.setPolled_reg (s : State) (v : Nat) (r : RegNum) : (s.setPolled v).reg r = s.reg r := rfl
@[simp] theorem State.setPolled_fl (s : State) (v : Nat) : (s.setPolled v).fl = s.fl := rfl
@[simp] theorem State.setPolled_pc (s : State) (v : Nat) : (s.setPolled v).pc = s.pc := rfl
@[simp] theorem State.setPolled_ir (s : State) (v : Nat) : (s.setPolled v).ir = s.ir := rfl
@[simp] theorem State.setPolled_ie (s : State) (v : Nat) : (s.setPolled v).ie = s.ie := rfl
@[simp] theorem State.setPolled_run (s : State) (v : Nat) : (s.setPolled v).run = s.run := rfl
@[simp] theorem State.setPolled_tacc (s : State) (v : Nat) : (s.setPolled v).tacc = s.tacc := rfl
@[simp] theorem State.setPolled_mem (s : State) (v : Nat) : (s.setPolled v).mem = s.mem := rfl
@[simp] theorem State.setPolled_out (s : State) (v : Nat) : (s.setPolled v).out = s.out := rfl
@[simp] theorem State.setPolled_inputs (s : State) (v : Nat) : (s.setPolled v).inputs = s.inputs := rfl
@[simp] theorem State.setPolled_polled (s : State) (v : Nat) : (s.setPolled v).polled = v := rfl

/-! ## advance -/

@[simp] theorem State.advance_reg (s : State) (v : Nat) (r : RegNum) : (s.advance v).reg r = s.reg r := rfl
@[simp] theorem State.advance_fl (s : State) (v : Nat) : (s.advance v).fl = s.fl := rfl
@[simp] theorem State.advance_pc (s : State) (v : Nat) : (s.advance v).pc = s.pc + v := rfl
@[simp] theorem State.advance_ir (s : State) (v : Nat) : (s.advance v).ir = s.ir := rfl
@[simp] theorem State.advance_ie (s : State) (v : Nat) : (s.advance v).ie = s.ie := rfl
@[simp] theorem State.advance_run (s : State) (v : Nat) : (s.advance v).run = s.run := rfl
@[simp] theorem State.advance_tacc (s : State) (v : Nat) : (s.advance v).tacc = s.tacc := rfl
@[simp] theorem State.advance_mem (s : State) (v : Nat) : (s.advance v).mem = s.mem := rfl
@[simp] theorem State.advance_out (s : State) (v : Nat) : (s.advance v).out = s.out := rfl
@[simp] theorem State.advance_inputs (s : State) (v : Nat) : (s.advance v).inputs = s.inputs := rfl
@[simp] theorem State.advance_polled (s : State) (v : Nat) : (s.advance v).polled = s.polled := rfl

/-! ## jump -/

@[simp] theorem State.jump_reg (s : State) (v : Byte) (r : RegNum) : (s.jump v).reg r = s.reg r := rfl
@[simp] theorem State.jump_fl (s : State) (v : Byte) : (s.jump v).fl = s.fl := rfl
@[simp] theorem State.jump_pc (s : State) (v : Byte) : (s.jump v).pc = v.toNat := rfl
@[simp] theorem State.jump_ir (s : State) (v : Byte) : (s.jump v).ir = s.ir := rfl
@[simp] theorem State.jump_ie (s : State) (v : Byte) : (s.jump v).ie = s.ie := rfl
@[simp] theorem State.jump_run (s : State) (v : Byte) : (s.jump v).run = s.run := rfl
@[simp] theorem State.jump_tacc (s : State) (v : Byte) : (s.jump v).tacc = s.tacc := rfl
@[simp] theorem State.jump_mem (s : State) (v : Byte) : (s.jump v).mem = s.mem := rfl
@[simp] theorem State.jump_out (s : State) (v : Byte) : (s.jump v).out = s.out := rfl
@[simp] theorem State.jump_inputs (s : State) (v : Byte) : (s.jump v).inputs = s.inputs := rfl
@[simp] theorem State.jump_polled (s : State) (v : Byte) : (s.jump v).polled = s.polled := rfl

/-! ## emit -/

@[simp] theorem State.emit_reg (s : State) (v : OutEvent) (r : RegNum) : (s.emit v).reg r = s.reg r := rfl
@[simp] theorem State.emit_fl (s : State) (v : OutEvent) : (s.emit v).fl = s.fl := rfl
@[simp] theorem State.emit_pc (s : State) (v : OutEvent) : (s.emit v).pc = s.pc := rfl
@[simp] theorem State.emit_ir (s : State) (v : OutEvent) : (s.emit v).ir = s.ir := rfl
@[simp] theorem State.emit_ie (s : State) (v : OutEvent) : (s.emit v).ie = s.ie := rfl
@[simp] theorem State.emit_run (s : State) (v : OutEvent) : (s.emit v).run = s.run := rfl
@[simp] theorem State.emit_tacc (s : State) (v : OutEvent) : (s.emit v).tacc = s.tacc := rfl
@[simp] theorem State.emit_mem (s : State) (v : OutEvent) : (s.emit v).mem = s.mem := rfl
@[simp] theorem State.emit_out (s : State) (v : OutEvent) : (s.emit v).out = s.out ++ [v] := rfl
@[simp] theorem State.emit_inputs (s : State) (v : OutEvent) : (s.emit v).inputs = s.inputs := rfl
@[simp] theorem State.emit_polled (s : State) (v : OutEvent) : (s.emit v).polled = s.polled := rfl

end Sys2Proof.Machine
end

