-- ==== Sys2Proof/Laws/Ops.lean ====
section
/-! SUPPORT. Everything the shared operations can do: memory accesses, the stack, taking an interrupt, returning from one, loading. -/

namespace Sys2Proof.Machine

/-! ## Raising a fault -/

@[simp] theorem raise_ne_next (info : FaultInfo) (s t : State) : raise info s ≠ .next t := nofun

@[simp] theorem raise_ne_refused (info : FaultInfo) (s : State) (r : Refusal) : raise info s ≠ .refused r := nofun

theorem raise_eq_fault (info info' : FaultInfo) (s t : State) :
    raise info s = .fault (.fatal info' t) ↔ info' = info ∧ t = s.setRun (.faulted info) := by
  simp only [raise, Host.Outcome.fault.injEq, Fault.fatal.injEq]
  exact ⟨fun h => ⟨h.1.symm, h.2.symm⟩, fun h => ⟨h.1.symm, h.2.symm⟩⟩

/-! ## Memory accesses -/

theorem inMemory_iff (addr : Int) : inMemory addr = true ↔ 0 ≤ addr ∧ addr < 256 := by
  simp only [inMemory, Bool.and_eq_true, decide_eq_true_eq]
  simp only [Config.memSize, Nat.cast_ofNat]

@[simp] theorem inMemory_uint (b : Byte) : inMemory (uint b) = true :=
  (inMemory_iff _).2 ⟨uint_nonneg b, uint_lt b⟩

/-- A read at a byte address never faults (R52). -/
@[simp] theorem memRead_uint (b : Byte) (s : State) (k : Byte → Result) :
    memRead (uint b) s k = k (s.mem.read b.toNat) := by
  simp [memRead]

theorem memRead_in {n : Nat} (h : n < 256) (s : State) (k : Byte → Result) :
    memRead (n : Int) s k = k (s.mem.read n) := by
  have : inMemory (n : Int) = true := (inMemory_iff _).2 (by omega)
  simp [memRead, this]

theorem memRead_out {addr : Int} (h : inMemory addr = false) (s : State) (k : Byte → Result) :
    memRead addr s k = raise (.addressingError addr) s := by
  simp [memRead, h]

/-- A read that goes on: the address is in memory and the byte there is handed on. -/
theorem memRead_next {addr : Int} {s : State} {k : Byte → Result} {t : State} :
    memRead addr s k = .next t ↔ inMemory addr = true ∧ k (s.mem.read addr.toNat) = .next t := by
  unfold memRead
  split_ifs with h <;> simp [h]

@[simp] theorem memWrite_uint (b : Byte) (v : Int) (s : State) (k : State → Result) :
    memWrite (uint b) v s k = k (s.setMem (s.mem.write b.toNat (u8 v))) := by
  simp [memWrite]

theorem memWrite_in {n : Nat} (h : n < 256) (v : Int) (s : State) (k : State → Result) :
    memWrite (n : Int) v s k = k (s.setMem (s.mem.write n (u8 v))) := by
  have : inMemory (n : Int) = true := (inMemory_iff _).2 (by omega)
  simp [memWrite, this]

theorem memWrite_out {addr : Int} (h : inMemory addr = false) (v : Int) (s : State) (k : State → Result) :
    memWrite addr v s k = raise (.addressingError addr) s := by
  simp [memWrite, h]

/-- A write that goes on: the address is in memory and the wrapped value is stored there. -/
theorem memWrite_next {addr v : Int} {s : State} {k : State → Result} {t : State} :
    memWrite addr v s k = .next t ↔
      inMemory addr = true ∧ k (s.setMem (s.mem.write addr.toNat (u8 v))) = .next t := by
  unfold memWrite
  split_ifs with h <;> simp [h]

/-! ## The stack -/

/-- The state after `Push(v)`: SP one lower, the wrapped value at the new SP (R60). -/
def State.pushed (s : State) (v : Int) : State :=
  (s.setReg SP (s.reg SP - 1)).setMem (s.mem.write ((s.reg SP).toNat - 1) (u8 v))

/-- The state after `Pop()`: SP one higher (R61). -/
def State.popped (s : State) : State := s.setReg SP (s.reg SP + 1)

theorem sp_pred_toNat {b : Byte} (h : 0 < b.toNat) : (b - 1).toNat = b.toNat - 1 := by
  bv_omega

theorem sp_succ_toNat {b : Byte} (h : b.toNat < 255) : (b + 1).toNat = b.toNat + 1 := by
  bv_omega

/-- Everything `Push(v)` can do (R60). -/
theorem pushByte_eq (v : Int) (s : State) (k : State → Result) :
    pushByte v s k =
      if 0 < (s.reg SP).toNat then k (s.pushed v) else raise (.addressingError (-1)) s := by
  have hlt := (s.reg SP).isLt
  by_cases h : 0 < (s.reg SP).toNat
  · have h1 : pushAddress s = (((s.reg SP).toNat - 1 : Nat) : Int) := by
      simp only [pushAddress, uint]; omega
    have h2 : u8 (pushAddress s) = s.reg SP - 1 := by
      apply BitVec.eq_of_toNat_eq
      rw [sp_pred_toNat h, u8_toNat, h1]
      omega
    have h3 : ¬ pushAddress s < 0 := by rw [h1]; omega
    unfold pushByte
    rw [if_neg h3, if_pos h, h2, h1, memWrite_in (by omega)]
    rfl
  · have h1 : pushAddress s = -1 := by
      simp only [pushAddress, uint]; omega
    unfold pushByte
    rw [h1, if_pos (by decide), if_neg h]

/-- Everything `Pop()` can do (R61). -/
theorem popByte_eq (s : State) (k : Byte → State → Result) :
    popByte s k =
      if (s.reg SP).toNat < 255 then k (s.mem.read (s.reg SP).toNat) s.popped
      else raise (.addressingError 256) s := by
  have hlt := (s.reg SP).isLt
  unfold popByte
  rw [memRead_uint]
  by_cases h : (s.reg SP).toNat < 255
  · have h2 : u8 (uint (s.reg SP) + 1) = s.reg SP + 1 := by
      apply BitVec.eq_of_toNat_eq
      rw [sp_succ_toNat h, u8_toNat]
      simp only [uint]; omega
    rw [if_pos h]
    simp only [h2]
    rw [if_neg (by simp only [uint]; omega)]
    rfl
  · rw [if_neg h]
    simp only
    rw [if_pos (by simp only [uint]; omega)]
    congr 2
    simp only [uint]; omega

theorem pushByte_next {v : Int} {s : State} {k : State → Result} {t : State} :
    pushByte v s k = .next t ↔ 0 < (s.reg SP).toNat ∧ k (s.pushed v) = .next t := by
  rw [pushByte_eq]
  split_ifs with h <;> simp [h]

theorem popByte_next {s : State} {k : Byte → State → Result} {t : State} :
    popByte s k = .next t ↔
      (s.reg SP).toNat < 255 ∧ k (s.mem.read (s.reg SP).toNat) s.popped = .next t := by
  rw [popByte_eq]
  split_ifs with h <;> simp [h]

/-! ## The state after a push or a pop, field by field -/

@[simp] theorem State.pushed_sp (s : State) (v : Int) : (s.pushed v).reg SP = s.reg SP - 1 := by
  simp [State.pushed]

@[simp] theorem State.pushed_reg_ne (s : State) (v : Int) {r : RegNum} (h : r ≠ SP) :
    (s.pushed v).reg r = s.reg r := by
  simp [State.pushed, h]

@[simp] theorem State.pushed_mem (s : State) (v : Int) :
    (s.pushed v).mem = s.mem.write ((s.reg SP).toNat - 1) (u8 v) := rfl
@[simp] theorem State.pushed_fl (s : State) (v : Int) : (s.pushed v).fl = s.fl := rfl
@[simp] theorem State.pushed_pc (s : State) (v : Int) : (s.pushed v).pc = s.pc := rfl
@[simp] theorem State.pushed_ir (s : State) (v : Int) : (s.pushed v).ir = s.ir := rfl
@[simp] theorem State.pushed_ie (s : State) (v : Int) : (s.pushed v).ie = s.ie := rfl
@[simp] theorem State.pushed_run (s : State) (v : Int) : (s.pushed v).run = s.run := rfl
@[simp] theorem State.pushed_tacc (s : State) (v : Int) : (s.pushed v).tacc = s.tacc := rfl
@[simp] theorem State.pushed_out (s : State) (v : Int) : (s.pushed v).out = s.out := rfl
@[simp] theorem State.pushed_inputs (s : State) (v : Int) : (s.pushed v).inputs = s.inputs := rfl
@[simp] theorem State.pushed_polled (s : State) (v : Int) : (s.pushed v).polled = s.polled := rfl

@[simp] theorem State.popped_sp (s : State) : s.popped.reg SP = s.reg SP + 1 := by
  simp [State.popped]

@[simp] theorem State.popped_reg_ne (s : State) {r : RegNum} (h : r ≠ SP) : s.popped.reg r = s.reg r := by
  simp [State.popped, h]

@[simp] theorem State.popped_mem (s : State) : s.popped.mem = s.mem := rfl
@[simp] theorem State.popped_fl (s : State) : s.popped.fl = s.fl := rfl
@[simp] theorem State.popped_pc (s : State) : s.popped.pc = s.pc := rfl
@[simp] theorem State.popped_ir (s : State) : s.popped.ir = s.ir := rfl
@[simp] theorem State.popped_ie (s : State) : s.popped.ie = s.ie := rfl
@[simp] theorem State.popped_run (s : State) : s.popped.run = s.run := rfl
@[simp] theorem State.popped_tacc (s : State) : s.popped.tacc = s.tacc := rfl
@[simp] theorem State.popped_out (s : State) : s.popped.out = s.out := rfl
@[simp] theorem State.popped_inputs (s : State) : s.popped.inputs = s.inputs := rfl
@[simp] theorem State.popped_polled (s : State) : s.popped.polled = s.polled := rfl

/-- A push keeps the canonical form of memory. -/
theorem State.pushed_wf {s : State} (h : s.mem.wf = true) (v : Int) : (s.pushed v).mem.wf = true := by
  have hlt := (s.reg SP).isLt
  have hz : (s.reg SP).toNat - 1 < Config.memSize := by simp only [Config.memSize]; omega
  exact Memory.wf_write h _ hz

/-! ## Several pushes or pops

What each push or pop keeps, all of them keep. -/

/-- A run of pushes that goes on: whatever one push keeps holds of the state handed on. -/
theorem pushRegs_next {rs : List RegNum} {s : State} {k : State → Result} {t : State} (P : State → Prop)
    (hP : ∀ u v, P u → 0 < (u.reg SP).toNat → P (u.pushed v)) (hs : P s) (h : pushRegs rs s k = .next t) :
    ∃ u, P u ∧ k u = .next t := by
  induction rs generalizing s with
  | nil => exact ⟨s, hs, h⟩
  | cons r rs ih =>
    obtain ⟨h1, h2⟩ := pushByte_next.1 h
    exact ih (hP _ _ hs h1) h2

/-- A run of pops that goes on: whatever one pop and one register write keep holds of the state handed on. -/
theorem popRegs_next {rs : List RegNum} {s : State} {k : State → Result} {t : State} (P : State → Prop)
    (hP : ∀ u r, P u → (u.reg SP).toNat < 255 → P (u.popped.setReg r (u.mem.read (u.reg SP).toNat))) (hs : P s)
    (h : popRegs rs s k = .next t) : ∃ u, P u ∧ k u = .next t := by
  induction rs generalizing s with
  | nil => exact ⟨s, hs, h⟩
  | cons r rs ih =>
    obtain ⟨h1, h2⟩ := popByte_next.1 h
    exact ih (hP _ _ hs h1) h2

/-- Everything a trap that goes on can do to the fields it does not push into: IE is off, FL, IR, the engine state, the
timer, the output and the inputs are as before, PC is the byte at the vector entry, and memory stays canonical. -/
theorem takeInterrupt_next {i : Line} {s t : State} (h : takeInterrupt i s = .next t) :
    t.ie = false ∧ t.fl = s.fl ∧ t.ir = s.ir ∧ t.run = s.run ∧ t.tacc = s.tacc ∧ t.out = s.out ∧
      t.inputs = s.inputs ∧ t.polled = s.polled ∧ t.pc = (t.mem.read (248 + i.val)).toNat ∧
      (s.mem.wf = true → t.mem.wf = true) := by
  obtain ⟨h1, h2⟩ := pushByte_next.1 h
  obtain ⟨h3, h4⟩ := pushByte_next.1 h2
  let P : State → Prop := fun u => u.ie = false ∧ u.fl = s.fl ∧ u.ir = s.ir ∧ u.run = s.run ∧ u.tacc = s.tacc ∧
    u.out = s.out ∧ u.inputs = s.inputs ∧ u.polled = s.polled ∧ (s.mem.wf = true → u.mem.wf = true)
  have hP : ∀ u v, P u → 0 < (u.reg SP).toNat → P (u.pushed v) := fun u v ⟨a, b, c, d, e, f, g, p, w⟩ _ =>
    ⟨a, b, c, d, e, f, g, p, fun hw => State.pushed_wf (w hw) v⟩
  have h0 : P (((((s.setIe false).setReg IS 0).pushed s.pc)).pushed (uint s.fl)) :=
    ⟨rfl, rfl, rfl, rfl, rfl, rfl, rfl, rfl, fun hw =>
      State.pushed_wf (State.pushed_wf (s := (s.setIe false).setReg IS 0) hw _) _⟩
  obtain ⟨u, ⟨p1, p2, p3, p4, p5, p6, p7, p8, p9⟩, hu⟩ := pushRegs_next P hP h0 h4
  rw [memRead_in (by simp only [Config.vectorBase]; omega)] at hu
  obtain rfl : u.jump _ = t := by simpa using hu
  exact ⟨p1, p2, p3, p4, p5, p6, p7, p8, rfl, p9⟩

/-- Everything a return from interrupt that goes on can do to the fields it does not pop: IE is on, and memory, IR, the
engine state, the timer, the output and the inputs are as before; PC is a byte. -/
theorem returnFromInterrupt_next {s t : State} (h : returnFromInterrupt s = .next t) :
    t.ie = true ∧ t.mem = s.mem ∧ t.ir = s.ir ∧ t.run = s.run ∧ t.tacc = s.tacc ∧ t.out = s.out ∧
      t.inputs = s.inputs ∧ t.polled = s.polled ∧ t.pc < 256 := by
  let P : State → Prop := fun u => u.mem = s.mem ∧ u.ir = s.ir ∧ u.run = s.run ∧ u.tacc = s.tacc ∧ u.out = s.out ∧
    u.inputs = s.inputs ∧ u.polled = s.polled
  have h0 : P s := ⟨rfl, rfl, rfl, rfl, rfl, rfl, rfl⟩
  obtain ⟨u, ⟨p1, p2, p3, p4, p5, p6, p7⟩, hu⟩ := popRegs_next P (fun u r hu _ => hu) h0 h
  obtain ⟨-, h2⟩ := popByte_next.1 hu
  obtain ⟨-, h4⟩ := popByte_next.1 h2
  simp only [Host.Outcome.next.injEq] at h4
  subst h4
  exact ⟨rfl, p1, p2, p3, p4, p5, p6, p7, BitVec.isLt _⟩

/-! ## Loading -/

/-- Loading from address `k` on: every byte must lie below 256, and then only memory changes (R322). -/
theorem loadFrom_next {k : Nat} {image : List Int} {s t : State} (h : loadFrom k image s = .next t) :
    (image ≠ [] → k + image.length ≤ 256) ∧ t = s.setMem t.mem ∧ (s.mem.wf = true → t.mem.wf = true) := by
  induction image generalizing k s with
  | nil =>
    simp only [loadFrom, Host.Outcome.next.injEq] at h
    subst h
    exact ⟨nofun, rfl, id⟩
  | cons v image ih =>
    obtain ⟨h1, h2⟩ := memWrite_next.1 h
    have hk := (inMemory_iff _).1 h1
    obtain ⟨i1, i2, i3⟩ := ih h2
    refine ⟨fun _ => ?_, i2, fun hw => i3 (Memory.wf_write hw _ (by simp only [Config.memSize]; omega))⟩
    cases image with
    | nil => simp only [List.length_cons, List.length_nil]; omega
    | cons w image => have := i1 (by simp); simp only [List.length_cons] at this ⊢; omega

end Sys2Proof.Machine
end

