-- ==== Sys2Proof/Laws/Interrupt.lean ====
section
/-! SUPPORT. The timer's arithmetic as rational numbers, what a poll can change, and the priority scan. -/

namespace Sys2Proof.Machine

/-! ## The timer's arithmetic -/

theorem Seconds.den_pos (t : Seconds) : 0 < t.den := Nat.succ_pos _

theorem Seconds.den_ne_zero (t : Seconds) : (t.den : ℚ) ≠ 0 := by
  exact_mod_cast t.den_pos.ne'

theorem Seconds.ofFraction_den {n d : Nat} (hd : 0 < d) : (Seconds.ofFraction n d).den = d / Nat.gcd n d := by
  have : 0 < d / Nat.gcd n d := Nat.div_pos (Nat.le_of_dvd hd (Nat.gcd_dvd_right n d)) (Nat.gcd_pos_of_pos_right n hd)
  simp only [Seconds.ofFraction, Seconds.den]
  omega

/-- Reducing a fraction does not change its value. -/
theorem Seconds.ofFraction_toRat {n d : Nat} (hd : 0 < d) : (Seconds.ofFraction n d).toRat = (n : ℚ) / (d : ℚ) := by
  have hg : 0 < Nat.gcd n d := Nat.gcd_pos_of_pos_right n hd
  have hgq : ((Nat.gcd n d : Nat) : ℚ) ≠ 0 := by exact_mod_cast hg.ne'
  rw [Seconds.toRat, Seconds.ofFraction_den hd]
  show ((n / Nat.gcd n d : Nat) : ℚ) / ((d / Nat.gcd n d : Nat) : ℚ) = _
  rw [Nat.cast_div (Nat.gcd_dvd_left n d) hgq, Nat.cast_div (Nat.gcd_dvd_right n d) hgq, div_div_div_cancel_right₀ hgq]

theorem Seconds.ofFraction_lowest {n d : Nat} (hd : 0 < d) : (Seconds.ofFraction n d).lowest = true := by
  have hg : 0 < Nat.gcd n d := Nat.gcd_pos_of_pos_right n hd
  simp only [Seconds.lowest, beq_iff_eq, Seconds.ofFraction_den hd]
  exact Nat.gcd_div_gcd_div_gcd_of_pos_right hd

/-- The sum is exact. -/
@[simp] theorem Seconds.add_toRat (t u : Seconds) : (t.add u).toRat = t.toRat + u.toRat := by
  rw [Seconds.add, Seconds.ofFraction_toRat (Nat.mul_pos t.den_pos u.den_pos), Seconds.toRat, Seconds.toRat,
    div_add_div _ _ t.den_ne_zero u.den_ne_zero]
  push_cast
  ring

theorem Seconds.add_lowest (t u : Seconds) : (t.add u).lowest = true :=
  Seconds.ofFraction_lowest (Nat.mul_pos t.den_pos u.den_pos)

theorem Seconds.atLeastOne_iff (t : Seconds) : t.atLeastOne = true ↔ 1 ≤ t.toRat := by
  have hd : (0 : ℚ) < (t.den : ℚ) := by exact_mod_cast t.den_pos
  rw [Seconds.atLeastOne, decide_eq_true_eq, Seconds.toRat, le_div_iff₀ hd, one_mul]
  exact_mod_cast Iff.rfl

/-- One second less is exact, for a time of at least one second. -/
theorem Seconds.minusOne_toRat {t : Seconds} (h : t.atLeastOne = true) : t.minusOne.toRat = t.toRat - 1 := by
  have h' : t.den ≤ t.num := by simpa [Seconds.atLeastOne] using h
  have hd := t.den_ne_zero
  have hden : t.minusOne.den = t.den := rfl
  rw [Seconds.toRat, hden, Seconds.toRat, div_sub_one hd]
  rw [show t.minusOne.num = t.num - t.den from rfl, Nat.cast_sub h']

theorem Seconds.minusOne_lowest {t : Seconds} (h : t.atLeastOne = true) (hl : t.lowest = true) :
    t.minusOne.lowest = true := by
  have h' : t.den ≤ t.num := by simpa [Seconds.atLeastOne] using h
  have hden : t.minusOne.den = t.den := rfl
  simp only [Seconds.lowest, beq_iff_eq, hden] at hl ⊢
  show Nat.gcd (t.num - t.den) t.den = 1
  rw [Nat.gcd_sub_self_left h']
  exact hl

/-! ## What a poll can change -/

theorem pollTimer_eq (e : Seconds) (s : State) :
    pollTimer e s = if (s.tacc.add e).atLeastOne = true
      then (s.setReg IS (s.reg IS ||| timerBit)).setTacc (s.tacc.add e).minusOne
      else s.setTacc (s.tacc.add e) := rfl

theorem pollTimer_fires {e : Seconds} {s : State} (h : (s.tacc.add e).atLeastOne = true) :
    pollTimer e s = (s.setReg IS (s.reg IS ||| timerBit)).setTacc (s.tacc.add e).minusOne := by
  rw [pollTimer_eq, if_pos h]

theorem pollTimer_waits {e : Seconds} {s : State} (h : ¬ (s.tacc.add e).atLeastOne = true) :
    pollTimer e s = s.setTacc (s.tacc.add e) := by
  rw [pollTimer_eq, if_neg h]

/-- Everything the timer part leaves: all but IS and the accumulator. -/
theorem pollTimer_frame (e : Seconds) (s : State) :
    (∀ r, r ≠ IS → (pollTimer e s).reg r = s.reg r) ∧ (pollTimer e s).fl = s.fl ∧ (pollTimer e s).pc = s.pc ∧
      (pollTimer e s).ir = s.ir ∧ (pollTimer e s).ie = s.ie ∧ (pollTimer e s).run = s.run ∧
      (pollTimer e s).mem = s.mem ∧ (pollTimer e s).out = s.out ∧ (pollTimer e s).inputs = s.inputs ∧
      (pollTimer e s).polled = s.polled := by
  rw [pollTimer_eq]
  split_ifs
  · exact ⟨fun r h => by simp [h], rfl, rfl, rfl, rfl, rfl, rfl, rfl, rfl, rfl⟩
  · exact ⟨fun r _ => rfl, rfl, rfl, rfl, rfl, rfl, rfl, rfl, rfl, rfl⟩

/-- Everything the key part leaves: all but IS and memory. -/
theorem pollKey_frame (key : Option Byte) (s : State) :
    (∀ r, r ≠ IS → (pollKey key s).reg r = s.reg r) ∧ (pollKey key s).fl = s.fl ∧ (pollKey key s).pc = s.pc ∧
      (pollKey key s).ir = s.ir ∧ (pollKey key s).ie = s.ie ∧ (pollKey key s).run = s.run ∧
      (pollKey key s).tacc = s.tacc ∧ (pollKey key s).out = s.out ∧ (pollKey key s).inputs = s.inputs ∧
      (pollKey key s).polled = s.polled := by
  cases key with
  | none => exact ⟨fun r _ => rfl, rfl, rfl, rfl, rfl, rfl, rfl, rfl, rfl, rfl⟩
  | some b => exact ⟨fun r h => by simp [pollKey, h], rfl, rfl, rfl, rfl, rfl, rfl, rfl, rfl, rfl⟩

/-! ## The sampled input -/

/-- While inputs are listed, a cycle samples the first of them. -/
theorem State.nextInput_cons {s : State} {i : CycleInput} {l : List CycleInput} (h : s.inputs = i :: l) :
    s.nextInput = i := by
  simp only [State.nextInput, h]

/-- Once none is listed, a cycle samples the free values of its number (log entry 5). -/
theorem State.nextInput_nil {s : State} (h : s.inputs = []) : s.nextInput = CycleInput.free s.polled := by
  simp only [State.nextInput, h]

@[simp] theorem State.sampled_reg (s : State) (r : RegNum) : s.sampled.reg r = s.reg r := rfl
@[simp] theorem State.sampled_tacc (s : State) : s.sampled.tacc = s.tacc := rfl
@[simp] theorem State.sampled_mem (s : State) : s.sampled.mem = s.mem := rfl
@[simp] theorem State.sampled_inputs (s : State) : s.sampled.inputs = s.inputs.tail := rfl
@[simp] theorem State.sampled_polled (s : State) : s.sampled.polled = s.polled + 1 := rfl

/-- Everything a poll leaves: all but IS, the accumulator, memory and the inputs; it uses up one input. -/
theorem poll_frame (s : State) :
    (∀ r, r ≠ IS → (poll s).reg r = s.reg r) ∧ (poll s).fl = s.fl ∧ (poll s).pc = s.pc ∧ (poll s).ir = s.ir ∧
      (poll s).ie = s.ie ∧ (poll s).run = s.run ∧ (poll s).out = s.out ∧ (poll s).inputs = s.inputs.tail ∧
      (poll s).polled = s.polled + 1 := by
  obtain ⟨t1, t2, t3, t4, t5, t6, -, t8, t9, t10⟩ := pollTimer_frame s.nextInput.elapsed s.sampled
  obtain ⟨k1, k2, k3, k4, k5, k6, -, k8, k9, k10⟩ :=
    pollKey_frame s.nextInput.key (pollTimer s.nextInput.elapsed s.sampled)
  exact ⟨fun r h => (k1 r h).trans (t1 r h), k2.trans t2, k3.trans t3, k4.trans t4, k5.trans t5, k6.trans t6,
    k8.trans t8, k9.trans t9, k10.trans t10⟩

/-- The accumulator a poll leaves is the timer part's. -/
theorem poll_tacc (s : State) : (poll s).tacc = (pollTimer s.nextInput.elapsed s.sampled).tacc :=
  (pollKey_frame _ _).2.2.2.2.2.2.1

/-- A poll writes memory only at the mailbox, and only with a sampled key. -/
theorem poll_mem (s : State) :
    (poll s).mem =
      match s.nextInput.key with
      | none => s.mem
      | some b => s.mem.write Config.mailbox b := by
  have ht : (pollTimer s.nextInput.elapsed s.sampled).mem = s.mem := (pollTimer_frame _ _).2.2.2.2.2.2.1
  unfold poll
  cases s.nextInput.key with
  | none => exact ht
  | some b => simp only [pollKey, State.setMem_mem, ht]

/-- A poll keeps the canonical form of memory. -/
theorem poll_wf {s : State} (h : s.mem.wf = true) : (poll s).mem.wf = true := by
  rw [poll_mem]
  cases s.nextInput.key with
  | none => exact h
  | some b => exact Memory.wf_write h b (by decide)

/-- The accumulator after a poll is in lowest terms. -/
theorem poll_lowest (s : State) : (poll s).tacc.lowest = true := by
  rw [poll_tacc]
  by_cases h : (s.sampled.tacc.add s.nextInput.elapsed).atLeastOne = true
  · rw [pollTimer_fires h]
    exact Seconds.minusOne_lowest h (Seconds.add_lowest _ _)
  · rw [pollTimer_waits h]
    exact Seconds.add_lowest _ _

/-! ## The priority scan -/

/-- No line is found exactly when no bit is set (R277). -/
theorem lowestLine_none : ∀ p : Byte, lowestLine p = none ↔ p = 0 := by decide +kernel

/-- The line found is set and no lower one is (R278). -/
theorem lowestLine_some : ∀ (p : Byte) (i : Line), lowestLine p = some i ↔
    p.getLsbD i.val = true ∧ ∀ j : Line, j < i → p.getLsbD j.val = false := by decide +kernel

end Sys2Proof.Machine
end

