-- ==== Sys2Proof/Laws/Step.lean ====
section
/-! SUPPORT. What one step can do, said once: it stands still (Halted), takes a trap, or runs one decoded instruction. -/

namespace Sys2Proof.Machine

/-! ## Steps by engine state -/

theorem step_running {s : State} (h : s.run = .running) : step s = trapOrExecute (poll s) := by
  simp only [step, h]; rfl

theorem step_halted {s : State} (h : s.run = .halted) : step s = .next s := by
  simp only [step, h]

theorem step_faulted {s : State} {info : FaultInfo} (h : s.run = .faulted info) :
    step s = .fault (.fatal info s) := by
  simp only [step, h]

theorem trapOrExecute_trap {s : State} {i : Line} (h : trapDue s = some i) : trapOrExecute s = takeInterrupt i s := by
  simp only [trapOrExecute, h]

theorem trapOrExecute_noTrap {s : State} (h : trapDue s = none) : trapOrExecute s = fetchAndExecute s := by
  simp only [trapOrExecute, h]

/-! ## Fetching -/

/-- A run of operand fetches that goes on hands over exactly the bytes there, all of them inside memory. -/
theorem fetchOperands_next {n a : Nat} {s : State} {k : List Byte → Result} {t : State}
    (h : fetchOperands n (a : Int) s k = .next t) :
    (n = 0 ∨ a + n ≤ 256) ∧ k ((List.range' a n).map s.mem.read) = .next t := by
  induction n generalizing a k with
  | zero => exact ⟨.inl rfl, h⟩
  | succ n ih =>
    obtain ⟨h1, h2⟩ := memRead_next.1 h
    have ha := (inMemory_iff _).1 h1
    rw [show (a : Int) + 1 = ((a + 1 : Nat) : Int) by push_cast; rfl] at h2
    obtain ⟨i1, i2⟩ := ih h2
    refine ⟨.inr (by omega), ?_⟩
    simpa [List.range'_succ] using i2

/-- Operand fetches inside memory hand over the bytes there. -/
theorem fetchOperands_in {n a : Nat} (h : n = 0 ∨ a + n ≤ 256) (s : State) (k : List Byte → Result) :
    fetchOperands n (a : Int) s k = k ((List.range' a n).map s.mem.read) := by
  induction n generalizing a k with
  | zero => rfl
  | succ n ih =>
    rw [fetchOperands, memRead_in (by omega), show (a : Int) + 1 = ((a + 1 : Nat) : Int) by push_cast; rfl,
      ih (by omega)]
    simp [List.range'_succ]

/-- Operand fetches that run past the top of memory fault at address 256 (R96, R98). -/
theorem fetchOperands_past {n a : Nat} (ha : a ≤ 256) (h : 256 < a + n) (s : State) (k : List Byte → Result) :
    fetchOperands n (a : Int) s k = raise (.addressingError 256) s := by
  induction n generalizing a k with
  | zero => omega
  | succ n ih =>
    by_cases h256 : a = 256
    · subst h256
      rw [fetchOperands, memRead_out (by decide)]
      rfl
    · rw [fetchOperands, memRead_in (by omega), show (a : Int) + 1 = ((a + 1 : Nat) : Int) by push_cast; rfl,
        ih (by omega) (by omega)]

/-- The operand bytes of the instruction at PC, as its opcode counts them. -/
def State.operandsAt (s : State) : List Byte :=
  (List.range' (s.pc + 1) (operandCount (s.mem.read s.pc))).map s.mem.read

/-- An instruction that lies in memory is decoded and executed with IR at its opcode (R96). -/
theorem fetchAndExecute_in {s : State} (hc : operandCount (s.mem.read s.pc) ≠ 3)
    (h : s.pc + operandCount (s.mem.read s.pc) < 256) :
    fetchAndExecute s = decodeAndExecute s.operandsAt (s.setIr (s.mem.read s.pc)) := by
  unfold fetchAndExecute
  rw [memRead_in (by omega)]
  simp only [if_neg hc]
  rw [show (s.pc : Int) + 1 = ((s.pc + 1 : Nat) : Int) by push_cast; rfl, fetchOperands_in (by omega)]
  rfl

/-- Everything a fetch that goes on can do: the instruction lies in memory below 256, the decoder accepts it, and it is
executed with IR at its opcode (R96). -/
theorem fetchAndExecute_next {s t : State} (h : fetchAndExecute s = .next t) :
    ∃ i, s.pc + operandCount (s.mem.read s.pc) < 256 ∧ operandCount (s.mem.read s.pc) ≠ 3 ∧
      decodeFetched (s.mem.read s.pc) s.operandsAt = .ok i ∧ exec i (s.setIr (s.mem.read s.pc)) = .next t := by
  obtain ⟨h1, h2⟩ := memRead_next.1 h
  have hpc := (inMemory_iff _).1 h1
  simp only [Int.toNat_natCast] at h2
  split_ifs at h2 with hc
  · exact absurd h2 (raise_ne_next _ _ _)
  · rw [show (s.pc : Int) + 1 = ((s.pc + 1 : Nat) : Int) by push_cast; rfl] at h2
    obtain ⟨h3, h4⟩ := fetchOperands_next h2
    simp only [State.setIr_mem] at h4
    unfold decodeAndExecute at h4
    simp only [State.setIr_ir] at h4
    split at h4
    · exact ⟨_, by omega, hc, ‹_›, h4⟩
    · exact absurd h4 (raise_ne_next _ _ _)
    · exact absurd h4 (raise_ne_next _ _ _)

/-- Everything a step that answers a next state can do (R96): a halted core stands still; a running one takes the due
trap, or runs one instruction that the decoder read at PC. -/
theorem step_next {s t : State} (h : step s = .next t) :
    (s.run = .halted ∧ t = s) ∨
    (s.run = .running ∧ ∃ i, trapDue (poll s) = some i ∧ takeInterrupt i (poll s) = .next t) ∨
    (s.run = .running ∧ trapDue (poll s) = none ∧
      ∃ i, (poll s).pc + operandCount ((poll s).mem.read (poll s).pc) < 256 ∧
        operandCount ((poll s).mem.read (poll s).pc) ≠ 3 ∧
        decodeFetched ((poll s).mem.read (poll s).pc) (poll s).operandsAt = .ok i ∧
        exec i ((poll s).setIr ((poll s).mem.read (poll s).pc)) = .next t) := by
  cases hr : s.run with
  | halted =>
    rw [step_halted hr, Host.Outcome.next.injEq] at h
    exact .inl ⟨rfl, h.symm⟩
  | faulted info => rw [step_faulted hr] at h; exact absurd h nofun
  | running =>
    rw [step_running hr] at h
    cases hd : trapDue (poll s) with
    | some i => exact .inr (.inl ⟨rfl, i, rfl, (trapOrExecute_trap hd).symm.trans h⟩)
    | none =>
      rw [trapOrExecute_noTrap hd] at h
      exact .inr (.inr ⟨rfl, rfl, fetchAndExecute_next h⟩)

end Sys2Proof.Machine
end

