-- ==== Sys2Proof/Laws/Fetch.lean ====
section
/-! SUPPORT. The bytes from an address to the top of memory, which the decoder reads, and what placing a word for the next step keeps. -/

namespace Sys2Proof.Machine

theorem bytesFrom_cons (m : Memory) {a : Nat} (h : a < 256) : bytesFrom m a = m.read a :: bytesFrom m (a + 1) := by
  simp only [bytesFrom, Config.memSize]
  rw [show 256 - a = (256 - (a + 1)) + 1 by omega, List.range'_succ]
  rfl

@[simp] theorem bytesFrom_length (m : Memory) (a : Nat) : (bytesFrom m a).length = 256 - a := by
  simp only [bytesFrom, Config.memSize, List.length_map, List.length_range']

theorem bytesFrom_nil (m : Memory) {a : Nat} (h : 256 ≤ a) : bytesFrom m a = [] :=
  List.eq_nil_of_length_eq_zero (by rw [bytesFrom_length]; omega)

/-- The first bytes, when they lie in memory. -/
theorem bytesFrom_take (m : Memory) {a n : Nat} (h : n = 0 ∨ a + n ≤ 256) :
    (bytesFrom m a).take n = (List.range' a n).map m.read := by
  simp only [bytesFrom, ← List.map_take, Config.memSize]
  rcases h with rfl | h
  · rfl
  · rw [show 256 - a = n + (256 - a - n) by omega, ← List.range'_append_1,
      List.take_left' (by rw [List.length_range'])]

/-! ## Placing a word -/

/-- Storing bytes inside memory keeps its canonical form. -/
theorem storeBytes_wf {a : Nat} {bs : List Byte} {m : Memory} (hm : m.wf = true) (h : a + bs.length ≤ 256) :
    (storeBytes a bs m).wf = true := by
  induction bs generalizing a m with
  | nil => exact hm
  | cons b bs ih =>
    simp only [List.length_cons] at h
    exact ih (Memory.wf_write hm b (by simp only [Config.memSize]; omega)) (by omega)

/-- After a word has been placed the core runs and the next step takes no trap, so it fetches. -/
theorem withFetchWord_fetches (s : State) (nbits w : Nat) :
    (s.withFetchWord nbits w).run = .running ∧ trapDue (poll (s.withFetchWord nbits w)) = none := by
  unfold State.withFetchWord
  dsimp only
  split_ifs
  all_goals refine ⟨rfl, ?_⟩
  · rw [trapDue, (poll_frame _).2.2.2.2.1]
    rfl
  · exact Option.not_isSome_iff_eq_none.1 ‹_›
  · rw [trapDue, (poll_frame _).2.2.2.2.1]
    rfl
  · exact Option.not_isSome_iff_eq_none.1 ‹_›

end Sys2Proof.Machine
end

