-- ==== Sys2Proof/Laws/PerInstr.lean ====
section
/-! SUPPORT. Facts about each instruction as syntax, one lemma per constructor: the encoding's length, its operand count field and its format. -/

namespace Sys2Proof.Laws.Encoding

/-- The encoding is as long as the instruction, bits 7:6 of its opcode count its operand bytes, and the opcode has the
instruction's format (R80, R81, R82, R86). -/
def Statement (i : Instr) : Prop :=
  (encode i).length = i.length ∧
  ∃ opcode operands, encode i = opcode :: operands ∧ operandCount opcode + 1 = i.length ∧
    opcodeFormat opcode = some i.format

theorem hlt : Statement .hlt := ⟨rfl, _, _, rfl, rfl, rfl⟩
theorem iret : Statement .iret := ⟨rfl, _, _, rfl, rfl, rfl⟩
theorem push (r : RegNum) : Statement (.push r) := ⟨rfl, _, _, rfl, rfl, rfl⟩
theorem pop (r : RegNum) : Statement (.pop r) := ⟨rfl, _, _, rfl, rfl, rfl⟩
theorem prn (r : RegNum) : Statement (.prn r) := ⟨rfl, _, _, rfl, rfl, rfl⟩
theorem pra (r : RegNum) : Statement (.pra r) := ⟨rfl, _, _, rfl, rfl, rfl⟩
theorem int (r : RegNum) : Statement (.int r) := ⟨rfl, _, _, rfl, rfl, rfl⟩
theorem jmp (r : RegNum) : Statement (.jmp r) := ⟨rfl, _, _, rfl, rfl, rfl⟩
theorem jeq (r : RegNum) : Statement (.jeq r) := ⟨rfl, _, _, rfl, rfl, rfl⟩
theorem jne (r : RegNum) : Statement (.jne r) := ⟨rfl, _, _, rfl, rfl, rfl⟩
theorem jgt (r : RegNum) : Statement (.jgt r) := ⟨rfl, _, _, rfl, rfl, rfl⟩
theorem jlt (r : RegNum) : Statement (.jlt r) := ⟨rfl, _, _, rfl, rfl, rfl⟩
theorem jle (r : RegNum) : Statement (.jle r) := ⟨rfl, _, _, rfl, rfl, rfl⟩
theorem jge (r : RegNum) : Statement (.jge r) := ⟨rfl, _, _, rfl, rfl, rfl⟩
theorem inc (r : RegNum) : Statement (.inc r) := ⟨rfl, _, _, rfl, rfl, rfl⟩
theorem dec (r : RegNum) : Statement (.dec r) := ⟨rfl, _, _, rfl, rfl, rfl⟩
theorem not (r : RegNum) : Statement (.not r) := ⟨rfl, _, _, rfl, rfl, rfl⟩
theorem ldi (a : RegNum) (imm : Byte) : Statement (.ldi a imm) := ⟨rfl, _, _, rfl, rfl, rfl⟩
theorem ld (a b : RegNum) : Statement (.ld a b) := ⟨rfl, _, _, rfl, rfl, rfl⟩
theorem st (a b : RegNum) : Statement (.st a b) := ⟨rfl, _, _, rfl, rfl, rfl⟩
theorem add (a b : RegNum) : Statement (.add a b) := ⟨rfl, _, _, rfl, rfl, rfl⟩
theorem sub (a b : RegNum) : Statement (.sub a b) := ⟨rfl, _, _, rfl, rfl, rfl⟩
theorem mul (a b : RegNum) : Statement (.mul a b) := ⟨rfl, _, _, rfl, rfl, rfl⟩
theorem div (a b : RegNum) : Statement (.div a b) := ⟨rfl, _, _, rfl, rfl, rfl⟩
theorem mod (a b : RegNum) : Statement (.mod a b) := ⟨rfl, _, _, rfl, rfl, rfl⟩
theorem cmp (a b : RegNum) : Statement (.cmp a b) := ⟨rfl, _, _, rfl, rfl, rfl⟩
theorem and (a b : RegNum) : Statement (.and a b) := ⟨rfl, _, _, rfl, rfl, rfl⟩
theorem or (a b : RegNum) : Statement (.or a b) := ⟨rfl, _, _, rfl, rfl, rfl⟩
theorem xor (a b : RegNum) : Statement (.xor a b) := ⟨rfl, _, _, rfl, rfl, rfl⟩
theorem shl (a b : RegNum) : Statement (.shl a b) := ⟨rfl, _, _, rfl, rfl, rfl⟩
theorem shr (a b : RegNum) : Statement (.shr a b) := ⟨rfl, _, _, rfl, rfl, rfl⟩

end Sys2Proof.Laws.Encoding
end

