-- ==== Sys2Proof/Laws/Stack.lean ====
section
/-! SUPPORT. Runs of pushes and pops with their exact results: where each byte goes, and where a run that does not fit stops. -/

namespace Sys2Proof.Machine

/-! ## Pushing a list of bytes -/

/-- The state after pushing bytes one after another, the first one first. -/
def State.pushAll (s : State) (vs : List Byte) : State := vs.foldl (fun u v => u.pushed (uint v)) s

@[simp] theorem State.pushAll_nil (s : State) : s.pushAll [] = s := rfl

@[simp] theorem State.pushAll_cons (s : State) (v : Byte) (vs : List Byte) :
    s.pushAll (v :: vs) = (s.pushed (uint v)).pushAll vs := rfl

/-- A run of pushes changes SP and memory only. -/
theorem State.pushAll_keeps (s : State) (vs : List Byte) :
    (∀ r, r ≠ SP → (s.pushAll vs).reg r = s.reg r) ∧ (s.pushAll vs).fl = s.fl ∧ (s.pushAll vs).pc = s.pc ∧
      (s.pushAll vs).ir = s.ir ∧ (s.pushAll vs).ie = s.ie ∧ (s.pushAll vs).run = s.run ∧
      (s.pushAll vs).tacc = s.tacc ∧ (s.pushAll vs).out = s.out ∧ (s.pushAll vs).inputs = s.inputs ∧
      (s.pushAll vs).polled = s.polled := by
  induction vs generalizing s with
  | nil => exact ⟨fun _ _ => rfl, rfl, rfl, rfl, rfl, rfl, rfl, rfl, rfl, rfl⟩
  | cons v vs ih =>
    obtain ⟨h1, h2⟩ := ih (s.pushed (uint v))
    exact ⟨fun r hr => (h1 r hr).trans (State.pushed_reg_ne _ _ hr), h2⟩

/-- A run of pushes that fits lowers SP by its length. -/
theorem State.pushAll_sp {s : State} {vs : List Byte} (h : vs.length ≤ (s.reg SP).toNat) :
    ((s.pushAll vs).reg SP).toNat = (s.reg SP).toNat - vs.length := by
  induction vs generalizing s with
  | nil => rfl
  | cons v vs ih =>
    simp only [List.length_cons] at h
    have hsp : ((s.pushed (uint v)).reg SP).toNat = (s.reg SP).toNat - 1 := by
      rw [State.pushed_sp, sp_pred_toNat (by omega)]
    rw [State.pushAll_cons, ih (by omega), hsp, List.length_cons]
    omega

/-- Memory after a run of pushes that fits: byte `k` of the run lies at `SP - 1 - k`, all else is as before. -/
theorem State.pushAll_read {s : State} {vs : List Byte} (h : vs.length ≤ (s.reg SP).toNat) (a : Nat) :
    (s.pushAll vs).mem.read a =
      if a < (s.reg SP).toNat ∧ (s.reg SP).toNat - vs.length ≤ a then vs.getD ((s.reg SP).toNat - 1 - a) 0
      else s.mem.read a := by
  induction vs generalizing s with
  | nil =>
    rw [if_neg (by simp only [List.length_nil]; omega)]
    rfl
  | cons v vs ih =>
    simp only [List.length_cons] at h ⊢
    have hsp : ((s.pushed (uint v)).reg SP).toNat = (s.reg SP).toNat - 1 := by
      rw [State.pushed_sp, sp_pred_toNat (by omega)]
    rw [State.pushAll_cons, ih (by omega), hsp, State.pushed_mem, u8_uint, Memory.read_write]
    by_cases ha : a = (s.reg SP).toNat - 1
    · rw [if_neg (by omega), if_pos ha, if_pos (by omega), ha, Nat.sub_self, List.getD_cons_zero]
    · rw [if_neg ha]
      by_cases hb : a < (s.reg SP).toNat ∧ (s.reg SP).toNat - (vs.length + 1) ≤ a
      · rw [if_pos hb, if_pos (by omega),
          show (s.reg SP).toNat - 1 - a = ((s.reg SP).toNat - 1 - 1 - a) + 1 by omega, List.getD_cons_succ]
      · rw [if_neg hb, if_neg (by omega)]

/-- Everything `pushRegs` can do, for registers other than SP: all bytes are pushed, or as many as fit before the fault. -/
theorem pushRegs_eq {rs : List RegNum} (hsp : SP ∉ rs) (s : State) (k : State → Result) :
    pushRegs rs s k =
      if rs.length ≤ (s.reg SP).toNat then k (s.pushAll (rs.map s.reg))
      else raise (.addressingError (-1)) (s.pushAll ((rs.map s.reg).take (s.reg SP).toNat)) := by
  induction rs generalizing s with
  | nil => exact (if_pos (Nat.zero_le _)).symm
  | cons r rs ih =>
    simp only [List.mem_cons, not_or] at hsp
    rw [pushRegs, pushByte_eq]
    by_cases h : 0 < (s.reg SP).toNat
    · have hn : ((s.pushed (uint (s.reg r))).reg SP).toNat = (s.reg SP).toNat - 1 := by
        rw [State.pushed_sp, sp_pred_toNat h]
      have hm : rs.map (s.pushed (uint (s.reg r))).reg = rs.map s.reg :=
        List.map_congr_left fun q hq => State.pushed_reg_ne _ _ fun e => hsp.2 (e ▸ hq)
      rw [if_pos h, ih hsp.2, hn, hm, List.map_cons, State.pushAll_cons, List.length_cons]
      by_cases hl : rs.length + 1 ≤ (s.reg SP).toNat
      · rw [if_pos hl, if_pos (by omega)]
      · rw [if_neg hl, if_neg (by omega)]
        obtain ⟨n, hn'⟩ : ∃ n, (s.reg SP).toNat = n + 1 := ⟨(s.reg SP).toNat - 1, by omega⟩
        rw [hn', List.take_succ_cons, State.pushAll_cons, Nat.add_sub_cancel]
    · rw [if_neg h, if_neg (by rw [List.length_cons]; omega), show (s.reg SP).toNat = 0 by omega]
      rfl

/-! ## Popping into registers -/

/-- What a register holds after pops into a list of registers, where `read k` is the byte of pop `k`: the byte of the
last pop into it, else its old value. -/
def popValue (read : Nat → Byte) (old : Byte) (r : RegNum) : List RegNum → Nat → Byte
  | [], _ => old
  | q :: qs, k => popValue read (if r = q then read k else old) r qs (k + 1)

/-- The state after pops into registers that fit. -/
def State.poppedInto (s : State) : List RegNum → State
  | [] => s
  | r :: rs => (s.popped.setReg r (s.mem.read (s.reg SP).toNat)).poppedInto rs

/-- A run of pops changes registers only. -/
theorem State.poppedInto_keeps (s : State) (rs : List RegNum) :
    (s.poppedInto rs).mem = s.mem ∧ (s.poppedInto rs).fl = s.fl ∧ (s.poppedInto rs).pc = s.pc ∧
      (s.poppedInto rs).ir = s.ir ∧ (s.poppedInto rs).ie = s.ie ∧ (s.poppedInto rs).run = s.run ∧
      (s.poppedInto rs).tacc = s.tacc ∧ (s.poppedInto rs).out = s.out ∧ (s.poppedInto rs).inputs = s.inputs ∧
      (s.poppedInto rs).polled = s.polled := by
  induction rs generalizing s with
  | nil => exact ⟨rfl, rfl, rfl, rfl, rfl, rfl, rfl, rfl, rfl, rfl⟩
  | cons r rs ih => exact ih (s.popped.setReg r (s.mem.read (s.reg SP).toNat))

/-- A run of pops that fits, into registers other than SP: SP rises by its length, and each register holds the byte
popped into it last. -/
theorem State.poppedInto_reg {rs : List RegNum} (hsp : SP ∉ rs) {s : State}
    (h : (s.reg SP).toNat + rs.length ≤ 255) :
    ((s.poppedInto rs).reg SP).toNat = (s.reg SP).toNat + rs.length ∧
    ∀ r, r ≠ SP → (s.poppedInto rs).reg r =
      popValue (fun k => s.mem.read ((s.reg SP).toNat + k)) (s.reg r) r rs 0 := by
  suffices H : ∀ (j n : Nat) (u : State), u.mem = s.mem → (u.reg SP).toNat = n + j → n + j + rs.length ≤ 255 →
      ((u.poppedInto rs).reg SP).toNat = n + j + rs.length ∧
      ∀ r, r ≠ SP → (u.poppedInto rs).reg r = popValue (fun k => s.mem.read (n + k)) (u.reg r) r rs j from
    H 0 _ s rfl rfl h
  clear h
  intro j n u hm hu h
  induction rs generalizing j u with
  | nil => exact ⟨hu, fun _ _ => rfl⟩
  | cons q rs ih =>
    simp only [List.mem_cons, not_or] at hsp
    simp only [List.length_cons] at h ⊢
    have hq : ((u.popped.setReg q (u.mem.read (u.reg SP).toNat)).reg SP).toNat = n + (j + 1) := by
      rw [State.reg_setReg_ne _ _ hsp.1, State.popped_sp, sp_succ_toNat (by omega), hu, Nat.add_assoc]
    obtain ⟨i1, i2⟩ := ih hsp.2 (j + 1) (u.popped.setReg q (u.mem.read (u.reg SP).toNat)) hm hq (by omega)
    refine ⟨i1.trans (by omega), fun r hr => (i2 r hr).trans ?_⟩
    rw [popValue, hu, hm]
    congr 1
    by_cases hrq : r = q
    · rw [if_pos hrq, hrq, State.reg_setReg_self]
    · rw [if_neg hrq, State.reg_setReg_ne _ _ hrq, State.popped_reg_ne _ hr]

/-- Everything `popRegs` can do, for registers other than SP: all are popped, or as many as fit before the fault. -/
theorem popRegs_eq {rs : List RegNum} (hsp : SP ∉ rs) (s : State) (k : State → Result) :
    popRegs rs s k =
      if (s.reg SP).toNat + rs.length ≤ 255 then k (s.poppedInto rs)
      else raise (.addressingError 256) (s.poppedInto (rs.take (255 - (s.reg SP).toNat))) := by
  have hlt := (s.reg SP).isLt
  induction rs generalizing s with
  | nil => rw [if_pos (by simp only [List.length_nil]; omega)]; rfl
  | cons r rs ih =>
    simp only [List.mem_cons, not_or] at hsp
    rw [popRegs, popByte_eq]
    by_cases h : (s.reg SP).toNat < 255
    · have hq : ((s.popped.setReg r (s.mem.read (s.reg SP).toNat)).reg SP).toNat = (s.reg SP).toNat + 1 := by
        rw [State.reg_setReg_ne _ _ hsp.1, State.popped_sp, sp_succ_toNat h]
      rw [if_pos h, ih hsp.2 _ (BitVec.isLt _), hq, List.length_cons]
      by_cases hl : (s.reg SP).toNat + (rs.length + 1) ≤ 255
      · rw [if_pos hl, if_pos (by omega)]
        rfl
      · rw [if_neg hl, if_neg (by omega),
          show 255 - (s.reg SP).toNat = (255 - ((s.reg SP).toNat + 1)) + 1 by omega, List.take_succ_cons]
        rfl
    · rw [if_neg h, if_neg (by rw [List.length_cons]; omega), show 255 - (s.reg SP).toNat = 0 by omega]
      rfl

end Sys2Proof.Machine
end

