-- ==== Sys2Proof/Laws/Trap.lean ====
section
/-! SUPPORT. Everything taking an interrupt and returning from one can do, with the exact states they leave. -/

namespace Sys2Proof.Machine

/-- The state a trap pushes from: interrupts off, IS cleared (R279 steps 1 and 2). -/
def State.trapBase (s : State) : State := (s.setIe false).setReg IS 0

@[simp] theorem State.trapBase_sp (s : State) : s.trapBase.reg SP = s.reg SP := State.reg_setReg_ne _ _ (by decide)

@[simp] theorem State.trapBase_is (s : State) : s.trapBase.reg IS = 0 := State.reg_setReg_self _ _ _

theorem State.trapBase_reg_ne (s : State) {r : RegNum} (h : r ≠ IS) : s.trapBase.reg r = s.reg r :=
  State.reg_setReg_ne _ _ h

@[simp] theorem trapFrame_length (s : State) : (trapFrame s).length = 9 := rfl

/-- The frame is what a trap pushes, in order: PC, FL, then R0..R6 after IS was cleared. -/
theorem trapFrame_eq (s : State) :
    trapFrame s = u8 (s.pc : Int) :: u8 (uint s.fl) :: [0, 1, 2, 3, 4, 5, 6].map s.trapBase.reg := by
  rw [u8_uint]
  simp only [trapFrame, List.map, u8_natCast, s.trapBase_reg_ne (r := 0) (by decide),
    s.trapBase_reg_ne (r := 1) (by decide), s.trapBase_reg_ne (r := 2) (by decide),
    s.trapBase_reg_ne (r := 3) (by decide), s.trapBase_reg_ne (r := 4) (by decide),
    s.trapBase_reg_ne (r := 5) (by decide), show s.trapBase.reg 6 = 0 from s.trapBase_is]

/-- A push stores the wrapped value, so pushing the wrapped value is the same. -/
theorem State.pushed_u8 (s : State) (v : Int) : s.pushed v = s.pushed (uint (u8 v)) := by
  simp only [State.pushed, u8_uint]

/-- Everything a trap can do: with nine bytes of room the frame is pushed and PC is the vector's byte, read after the
pushes; with less, the bytes that fit are pushed before the fault (R279, R286). -/
theorem takeInterrupt_eq (i : Line) (s : State) :
    takeInterrupt i s =
      if 9 ≤ (s.reg SP).toNat then
        .next ((s.trapBase.pushAll (trapFrame s)).jump ((s.trapBase.pushAll (trapFrame s)).mem.read (248 + i.val)))
      else raise (.addressingError (-1)) (s.trapBase.pushAll ((trapFrame s).take (s.reg SP).toNat)) := by
  have hs := s.trapBase_sp
  have hne : ∀ r : RegNum, r ∈ [0, 1, 2, 3, 4, 5, 6] → r ≠ SP := by decide
  have hm : ∀ u : State, (∀ r, r ≠ SP → u.reg r = s.trapBase.reg r) →
      [0, 1, 2, 3, 4, 5, 6].map u.reg = [0, 1, 2, 3, 4, 5, 6].map s.trapBase.reg :=
    fun u hu => List.map_congr_left fun q hq => hu q (hne q hq)
  rw [takeInterrupt, trapFrame_eq]
  change pushByte _ s.trapBase _ = _
  rw [pushByte_eq, hs]
  by_cases h0 : 0 < (s.reg SP).toNat
  · have h1 : ((s.trapBase.pushed (s.pc : Int)).reg SP).toNat = (s.reg SP).toNat - 1 := by
      rw [State.pushed_sp, hs, sp_pred_toNat h0]
    rw [if_pos h0]
    change pushByte (uint s.fl) _ _ = _
    rw [pushByte_eq, h1]
    by_cases h2 : 0 < (s.reg SP).toNat - 1
    · have h3 : (((s.trapBase.pushed (s.pc : Int)).pushed (uint s.fl)).reg SP).toNat = (s.reg SP).toNat - 2 := by
        rw [State.pushed_sp, sp_pred_toNat (by omega), h1]
        omega
      rw [if_pos h2, pushRegs_eq (by decide), h3,
        hm _ (fun r hr => by rw [State.pushed_reg_ne _ _ hr, State.pushed_reg_ne _ _ hr]),
        State.pushed_u8 s.trapBase s.pc, State.pushed_u8 _ (uint s.fl)]
      by_cases h9 : 9 ≤ (s.reg SP).toNat
      · rw [if_pos h9, if_pos (by simp only [List.length_cons, List.length_nil]; omega),
          memRead_in (by simp only [Config.vectorBase]; omega)]
        simp only [State.pushAll_cons, Config.vectorBase]
      · rw [if_neg h9, if_neg (by simp only [List.length_cons, List.length_nil]; omega)]
        obtain ⟨n, hn⟩ : ∃ n, (s.reg SP).toNat = n + 2 := ⟨(s.reg SP).toNat - 2, by omega⟩
        rw [hn, List.take_succ_cons, List.take_succ_cons, State.pushAll_cons, State.pushAll_cons, Nat.add_sub_cancel]
    · rw [if_neg h2, if_neg (by omega), show (s.reg SP).toNat = 1 by omega, State.pushed_u8, List.take_succ_cons,
        List.take_zero, State.pushAll_cons, State.pushAll_nil]
  · rw [if_neg h0, if_neg (by omega), show (s.reg SP).toNat = 0 by omega, List.take_zero, State.pushAll_nil]

/-- The registers a return from interrupt pops, in order (R221). -/
abbrev returnOrder : List RegNum := [6, 5, 4, 3, 2, 1, 0]

/-- Everything a return from interrupt can do: nine pops and interrupts on, or the fault of the pop that starts at SP = 255
with the earlier pops done (R221). -/
theorem returnFromInterrupt_eq (s : State) :
    returnFromInterrupt s =
      if (s.reg SP).toNat ≤ 246 then
        .next ((((((s.poppedInto returnOrder).popped.setFl (s.mem.read ((s.reg SP).toNat + 7))).popped).jump
          (s.mem.read ((s.reg SP).toNat + 8)))).setIe true)
      else if (s.reg SP).toNat ≤ 247 then
        raise (.addressingError 256)
          ((s.poppedInto returnOrder).popped.setFl (s.mem.read ((s.reg SP).toNat + 7)))
      else raise (.addressingError 256) (s.poppedInto (returnOrder.take (255 - (s.reg SP).toNat))) := by
  have hlt := (s.reg SP).isLt
  rw [returnFromInterrupt, popRegs_eq (by decide)]
  simp only [List.length_cons, List.length_nil]
  by_cases h : (s.reg SP).toNat + 7 ≤ 255
  · have hsp := (State.poppedInto_reg (rs := returnOrder) (by decide) (s := s) (by simpa using h)).1
    simp only [List.length_cons, List.length_nil, Nat.zero_add, Nat.reduceAdd] at hsp
    have hm := (State.poppedInto_keeps s returnOrder).1
    rw [if_pos h, popByte_eq, hsp, hm]
    by_cases h1 : (s.reg SP).toNat + 7 < 255
    · have h2 : (((s.poppedInto returnOrder).popped.setFl (s.mem.read ((s.reg SP).toNat + 7))).reg SP).toNat =
          (s.reg SP).toNat + 8 := by
        rw [State.setFl_reg, State.popped_sp, sp_succ_toNat (by omega), hsp]
      rw [if_pos h1, popByte_eq, h2, State.setFl_mem, State.popped_mem, hm]
      by_cases h3 : (s.reg SP).toNat + 8 < 255
      · rw [if_pos h3, if_pos (by omega)]
      · rw [if_neg h3, if_neg (by omega), if_pos (by omega)]
    · rw [if_neg h1, if_neg (by omega), if_neg (by omega), show 255 - (s.reg SP).toNat = 7 by omega,
        List.take_of_length_le (by simp only [List.length_cons, List.length_nil]; omega)]
  · rw [if_neg h, if_neg (by omega), if_neg (by omega)]

end Sys2Proof.Machine
end

