-- ==== Sys2Proof/Tests/Slice0.lean ====
section
/-! SUPPORT. The model's own tests: ill-formed words refused, words decoded, one step per vector of spec/95_test_vectors.md, and a witness for the hypotheses of each statement. -/

namespace Sys2Proof.Tests

open Sys2Proof.Machine

/-! ## Helpers: small states, and what a test looks at -/

/-- Interrupts off, PC at 0x40, the named register file, one quiet cycle listed, everything else as after reset. -/
def withRegs (f : RegFile) : State :=
  { State.reset with regs := f, pc := 0x40, ie := false, inputs := [CycleInput.quiet] }

/-- R0 and R1 given, the other registers zero, SP = 0xF4. -/
def regs01 (x0 x1 : Byte) : State := withRegs ⟨x0, x1, 0, 0, 0, 0, 0, 0xF4⟩

/-- SP given, R0 = 0xAA, R2 = 42. -/
def withSp (sp : Byte) : State := withRegs ⟨0xAA, 0, 42, 0, 0, 0, 0, sp⟩

/-- The bytes stored from PC on. -/
def place (bytes : List Byte) (s : State) : State := s.setMem (storeBytes s.pc bytes s.mem)

/-- Bytes stored from an address on. -/
def poke (a : Nat) (bytes : List Byte) (s : State) : State := s.setMem (storeBytes a bytes s.mem)

/-- What a test looks at in the next state; nothing where there is none. -/
def see {α : Type} (f : State → α) : Result → Option α
  | .next t => some (f t)
  | .fault _ => none
  | .refused _ => none

/-- The fault, and what a test looks at in the state it leaves. -/
def seeFault {α : Type} (f : State → α) : Result → Option (FaultInfo × α)
  | .next _ => none
  | .fault (.fatal info t) => some (info, f t)
  | .refused _ => none

/-- One step of the instruction at PC, on R0 and R1: R0, FL and PC after it. -/
def alu (bytes : List Byte) (x0 x1 : Byte) : Option (Byte × Byte × Nat) :=
  see (fun t => (t.reg 0, t.fl, t.pc)) (step (place bytes (regs01 x0 x1)))

/-! ## WellFormed refuses ill-formed raw instructions, one test per check -/

theorem test_wf_accepts : (RawInstr.mk 0xA0 [0, 7]).wellFormed = true := by decide
theorem test_wf_unknown_opcode : (RawInstr.mk 0x50 [5]).wellFormed = false := by decide
theorem test_wf_opcode_count_three : (RawInstr.mk 0xC0 [0, 0, 0]).wellFormed = false := by decide
theorem test_wf_operand_missing : (RawInstr.mk 0xA0 [0]).wellFormed = false := by decide
theorem test_wf_operand_extra : (RawInstr.mk 0x01 [0]).wellFormed = false := by decide
theorem test_wf_register_byte : (RawInstr.mk 0x47 [8]).wellFormed = false := by decide
theorem test_wf_first_register : (RawInstr.mk 0xA0 [9, 0]).wellFormed = false := by decide
theorem test_wf_second_register : (RawInstr.mk 0xA0 [0, 8]).wellFormed = false := by decide
theorem test_wf_ldi_register : (RawInstr.mk 0x82 [8, 1]).wellFormed = false := by decide
theorem test_wf_ldi_immediate_free : (RawInstr.mk 0x82 [0, 255]).wellFormed = true := by decide

/-! ## Decoding: every constructor's word, from the rows of spec/opcode_table.json (`encoding`) and R82, R86 -/

theorem test_decode_z :
    decode [0b00000001] = .ok (.hlt, []) ∧ decode [0b00010011] = .ok (.iret, []) := ⟨rfl, rfl⟩

theorem test_decode_stack_output_int :
    decode [0b01000101, 0b00000001] = .ok (.push 1, []) ∧ decode [0b01000110, 0b00000010] = .ok (.pop 2, []) ∧
    decode [0b01000111, 0b00000011] = .ok (.prn 3, []) ∧ decode [0b01001000, 0b00000100] = .ok (.pra 4, []) ∧
    decode [0b01010010, 0b00000101] = .ok (.int 5, []) := ⟨rfl, rfl, rfl, rfl, rfl⟩

theorem test_decode_jumps :
    decode [0b01010100, 0b00000000] = .ok (.jmp 0, []) ∧ decode [0b01010101, 0b00000001] = .ok (.jeq 1, []) ∧
    decode [0b01010110, 0b00000010] = .ok (.jne 2, []) ∧ decode [0b01010111, 0b00000011] = .ok (.jgt 3, []) ∧
    decode [0b01011000, 0b00000100] = .ok (.jlt 4, []) ∧ decode [0b01011001, 0b00000101] = .ok (.jle 5, []) ∧
    decode [0b01011010, 0b00000110] = .ok (.jge 6, []) := ⟨rfl, rfl, rfl, rfl, rfl, rfl, rfl⟩

theorem test_decode_unary :
    decode [0b01100101, 0b00000010] = .ok (.inc 2, []) ∧ decode [0b01100110, 0b00000111] = .ok (.dec 7, []) ∧
    decode [0b01101001, 0b00000001] = .ok (.not 1, []) := ⟨rfl, rfl, rfl⟩

theorem test_decode_load_store :
    decode [0b10000010, 0b00000011, 0b11001000] = .ok (.ldi 3 200, []) ∧
    decode [0b10000011, 0b00000010, 0b00000101] = .ok (.ld 2 5, []) ∧
    decode [0b10000100, 0b00000010, 0b00000001] = .ok (.st 2 1, []) := ⟨rfl, rfl, rfl⟩

theorem test_decode_arithmetic :
    decode [0b10100000, 0b00000000, 0b00000001] = .ok (.add 0 1, []) ∧
    decode [0b10100001, 0b00000010, 0b00000011] = .ok (.sub 2 3, []) ∧
    decode [0b10100010, 0b00000100, 0b00000101] = .ok (.mul 4 5, []) ∧
    decode [0b10100011, 0b00000110, 0b00000111] = .ok (.div 6 7, []) ∧
    decode [0b10100100, 0b00000001, 0b00000010] = .ok (.mod 1 2, []) ∧
    decode [0b10100111, 0b00000011, 0b00000000] = .ok (.cmp 3 0, []) := ⟨rfl, rfl, rfl, rfl, rfl, rfl⟩

theorem test_decode_logic :
    decode [0b10101000, 0b00000000, 0b00000001] = .ok (.and 0 1, []) ∧
    decode [0b10101010, 0b00000010, 0b00000011] = .ok (.or 2 3, []) ∧
    decode [0b10101011, 0b00000100, 0b00000101] = .ok (.xor 4 5, []) ∧
    decode [0b10101100, 0b00000110, 0b00000111] = .ok (.shl 6 7, []) ∧
    decode [0b10101101, 0b00000001, 0b00000010] = .ok (.shr 1 2, []) := ⟨rfl, rfl, rfl, rfl, rfl⟩

theorem test_decode_rejects_by_name :
    decode [] = .error .truncated ∧ decode [0x50] = .error .truncated ∧
    decode [0x50, 5] = .error (.rejected .unsupported) ∧ decode [0xC0] = .error (.rejected .unsupported) ∧
    decode [0xA0, 9, 10] = .error (.rejected (.invalidRegister 9)) := ⟨rfl, rfl, rfl, rfl, rfl⟩

/-! ## The table words of the host: bit 0 is the lowest bit of the first byte -/

theorem test_table_word : decodeTableWord 24 0xC80382 = some (.ldi 3 200) := by decide
theorem test_table_word_rejected : decodeTableWord 8 0x00 = none := by decide
theorem test_fetch_word_runs :
    see (fun t => (t.reg 3, t.pc, t.ir)) (step (State.reset.withFetchWord 24 0xC80382)) = some (200, 3, 0x82) := by
  decide
theorem test_fetch_word_halts :
    see (fun t => (t.run, t.pc)) (step (State.reset.withFetchWord 8 0x01)) = some (.halted, 1) := by decide

/-! ## The ALU (95_test_vectors.md 2.1) -/

theorem test_add_wraps : alu [0xA0, 0, 1] 200 100 = some (44, 0, 0x43) := by decide
theorem test_sub_borrows : alu [0xA1, 0, 1] 5 10 = some (251, 0, 0x43) := by decide
theorem test_mul_wraps : alu [0xA2, 0, 1] 43 42 = some (14, 0, 0x43) := by decide
theorem test_div_floors : alu [0xA3, 0, 1] 255 2 = some (127, 0, 0x43) := by decide
theorem test_div_by_zero :
    seeFault (fun t => (t.reg 0, t.pc)) (step (place [0xA3, 0, 1] (regs01 10 0))) =
      some (.divideByZero 0xA3 0 1, 10, 0x40) := by decide
theorem test_mod : alu [0xA4, 0, 1] 100 7 = some (2, 0, 0x43) := by decide
theorem test_mod_by_zero :
    seeFault (fun t => (t.reg 0, t.pc)) (step (place [0xA4, 0, 1] (regs01 5 0))) =
      some (.divideByZero 0xA4 0 1, 5, 0x40) := by decide
theorem test_inc_wraps : alu [0x65, 0] 255 0 = some (0, 0, 0x42) := by decide
theorem test_inc_sp_wraps :
    see (fun t => t.reg SP) (step (place [0x65, 7] (withSp 255))) = some 0 := by decide
theorem test_dec_wraps : alu [0x66, 0] 0 0 = some (255, 0, 0x42) := by decide
theorem test_and : alu [0xA8, 0, 1] 0xF0 0x3C = some (0x30, 0, 0x43) := by decide
theorem test_or : alu [0xAA, 0, 1] 0xF0 0x3C = some (0xFC, 0, 0x43) := by decide
theorem test_xor : alu [0xAB, 0, 1] 0xF0 0x3C = some (0xCC, 0, 0x43) := by decide
theorem test_not : alu [0x69, 0] 0x5A 0 = some (0xA5, 0, 0x42) := by decide
theorem test_shl : alu [0xAC, 0, 1] 0x81 1 = some (0x02, 0, 0x43) := by decide
theorem test_shl_same_register : alu [0xAC, 0, 0] 3 0 = some (0x18, 0, 0x43) := by decide
theorem test_shr_is_logical : alu [0xAD, 0, 1] 0xFF 1 = some (0x7F, 0, 0x43) := by decide
theorem test_shr_far : alu [0xAD, 0, 1] 0x80 200 = some (0, 0, 0x43) := by decide
theorem test_cmp_unsigned : alu [0xA7, 0, 1] 0 255 = some (0, 0b00000100, 0x43) := by decide
theorem test_cmp_clears_upper_bits :
    see (fun t => t.fl) (step (place [0xA7, 2, 2] ((regs01 0 0).setFl 0xFF))) = some 0b00000001 := by decide

/-! ## Load and store (2.2) -/

theorem test_ldi : see (fun t => (t.reg 3, t.pc)) (step (place [0x82, 3, 0xC8] (regs01 0 0))) = some (200, 0x43) := by
  decide
theorem test_ld_same_register :
    see (fun t => (t.reg 0, t.pc)) (step (place [0x83, 0, 0] (poke 0x10 [0x99] (regs01 0x10 0)))) =
      some (0x99, 0x43) := by decide
theorem test_st :
    see (fun t => (t.mem.read 0x80, t.mem.read 42, t.reg 0, t.pc)) (step (place [0x84, 0, 1] (regs01 0x80 42))) =
      some (42, 0, 0x80, 0x43) := by decide
theorem test_st_operand_was_fetched_before :
    see (fun t => t.mem.read 0x42) (step (place [0x84, 0, 1] (regs01 0x42 5))) = some 5 := by decide

/-! ## The stack (2.3) -/

theorem test_push_sp :
    see (fun t => (t.reg SP, t.mem.read 0xF3, t.pc)) (step (place [0x45, 7] (withSp 0xF4))) =
      some (0xF3, 0xF4, 0x42) := by decide
theorem test_push_at_zero :
    seeFault (fun t => (t.reg SP, t.mem.read 255, t.pc)) (step (place [0x45, 0] (withSp 0))) =
      some (.addressingError (-1), 0, 0, 0x40) := by decide
theorem test_pop_sp :
    see (fun t => (t.reg SP, t.pc)) (step (place [0x46, 7] (poke 0xF3 [0x50] (withSp 0xF3)))) =
      some (0x50, 0x42) := by decide
theorem test_pop_at_top :
    seeFault (fun t => (t.reg 0, t.reg SP)) (step (place [0x46, 0] (poke 255 [9] (withSp 255)))) =
      some (.addressingError 256, 0xAA, 255) := by decide

/-! ## Jumps (2.4): FL = 0b001 and 0b110, V101 and V105 -/

/-- PC after a jump through R2 = 0x50 at 0x30. -/
def jumpTo (opcode fl : Byte) : Option Nat :=
  see (fun t => t.pc)
    (step (place [opcode, 2] (((withRegs ⟨0, 0, 0x50, 0, 0, 0, 0, 0xF4⟩).setFl fl).setPc 0x30)))

theorem test_jmp : jumpTo 0x54 0 = some 0x50 := by decide
theorem test_jeq : jumpTo 0x55 0b001 = some 0x50 ∧ jumpTo 0x55 0b110 = some 0x32 := by decide
theorem test_jne : jumpTo 0x56 0b001 = some 0x32 ∧ jumpTo 0x56 0b110 = some 0x50 := by decide
theorem test_jgt : jumpTo 0x57 0b011 = some 0x50 ∧ jumpTo 0x57 0b100 = some 0x32 := by decide
theorem test_jge : jumpTo 0x5A 0b001 = some 0x50 ∧ jumpTo 0x5A 0b100 = some 0x32 := by decide
theorem test_jlt : jumpTo 0x58 0b110 = some 0x50 ∧ jumpTo 0x58 0b011 = some 0x32 := by decide
theorem test_jle : jumpTo 0x59 0b001 = some 0x50 ∧ jumpTo 0x59 0b010 = some 0x32 := by decide
theorem test_upper_flag_bits_take_nothing : jumpTo 0x5A 0xF8 = some 0x32 ∧ jumpTo 0x59 0xF8 = some 0x32 := by decide

/-! ## INT and IRET (2.5) -/

theorem test_int_is_register :
    see (fun t => (t.reg IS, t.pc)) (step (place [0x52, 6] (withRegs ⟨0, 0, 0, 0, 0, 0, 3, 0xF4⟩))) =
      some (0x0B, 0x42) := by decide
theorem test_int_eight_sets_nothing :
    see (fun t => t.reg IS) (step (place [0x52, 0] (withRegs ⟨8, 0, 0, 0, 0, 0, 0x13, 0xF4⟩))) = some 0x13 := by
  decide
theorem test_iret :
    see (fun t => ([0, 1, 2, 3, 4, 5, 6, 7].map t.reg, t.fl, t.pc, t.ie))
        (step (place [0x13] (poke 0xEB [0x00, 0x04, 0x00, 0x00, 0xFA, 0x20, 0x02, 0x00, 0x11] (withSp 0xEB)))) =
      some ([2, 0x20, 0xFA, 0, 0, 4, 0, 0xF4], 0, 0x11, true) := by decide
theorem test_iret_faults_at_the_eighth_pop :
    seeFault (fun t => (t.reg 6, t.reg 0, t.reg SP, t.fl, t.pc))
        (step (place [0x13] (poke 0xF8 [1, 2, 3, 4, 5, 6, 7, 8] (withSp 0xF8)))) =
      some (.addressingError 256, 1, 7, 255, 0, 0x40) := by decide

/-! ## Output and halt (2.6) -/

theorem test_prn :
    see (fun t => (t.out, consoleText t.out)) (step (place [0x47, 0] (regs01 255 0))) =
      some ([.prn 255], ['2', '5', '5', '\n']) := by decide
theorem test_pra :
    see (fun t => (t.out, consoleText t.out)) (step (place [0x48, 1] (regs01 0 0x41))) =
      some ([.pra 0x41], ['A']) := by decide
theorem test_hlt : see (fun t => (t.run, t.pc)) (step (place [0x01] (regs01 0 0))) = some (.halted, 0x41) := by decide

/-! ## Polling and traps (2.7) -/

/-- Interrupts on, IM and IS given, PC at 0x40. -/
def pending (im is sp : Byte) : State := { withRegs ⟨10, 11, 12, 13, 14, im, is, sp⟩ with ie := true, fl := 4 }

theorem test_trap_frame :
    see (fun t => ((List.range 9).map fun k => t.mem.read (0xEB + k), t.reg IS, t.reg SP, t.ie, t.pc))
        (step (poke 0xF9 [0x90] (pending 0xFF 0b00000110 0xF4))) =
      some ([0, 0xFF, 14, 13, 12, 11, 10, 4, 0x40], 0, 0xEB, false, 0x90) := by decide
theorem test_masked_line_runs_the_instruction :
    see (fun t => (t.reg IS, t.reg 0)) (step (place [0x82, 0, 9] (pending 0x04 0x03 0xF4))) = some (0x03, 9) := by
  decide
theorem test_trap_on_a_short_stack :
    seeFault (fun t => ((List.range 6).map fun k => t.mem.read k, t.reg IS, t.reg SP, t.ie))
        (step (pending 0x01 0x01 5)) =
      some (.addressingError (-1), [12, 11, 10, 4, 0x40, 0], 0, 0, false) := by decide
theorem test_trap_pushes_pc_modulo_256 :
    see (fun t => (t.mem.read 0xF3, t.pc)) (step (poke 0xF8 [0x20] ((pending 1 1 0xF4).setPc 0x100))) =
      some (0, 0x20) := by decide
theorem test_timer_carries :
    see (fun t => (t.reg IS, t.tacc))
        (step (place [0x54, 0] ((regs01 0x40 0).setTacc ⟨7, 9⟩ |>.setInputs [⟨⟨1, 1⟩, none⟩]))) =
      some (1, ⟨1, 4⟩) := by decide
theorem test_timer_fires_once_a_pass :
    see (fun t => (t.reg IS, t.tacc)) (step (place [0x54, 0] ((regs01 0x40 0).setInputs [⟨⟨5, 1⟩, none⟩]))) =
      some (1, ⟨3, 1⟩) := by decide
theorem test_key :
    see (fun t => (t.mem.read 0xF4, t.reg IS)) (step (place [0x54, 0] ((regs01 0x40 0).setInputs [⟨⟨0, 0⟩, some 0x48⟩]))) =
      some (0x48, 2) := by decide
theorem test_tick_and_key_in_one_poll :
    see (fun t => (t.mem.read 0xF4, t.reg IS, t.pc))
        (step (poke 0xF8 [0x90] ((pending 1 0 0xF4).setInputs [⟨⟨1, 0⟩, some 0x48⟩]))) =
      some (0x48, 0, 0x90) := by decide

/-! ## Decode faults (2.8) -/

/-- The fault of one step from the bytes at an address. -/
def faultAt (pc : Nat) (bytes : List Byte) : Option (FaultInfo × Nat) :=
  seeFault (fun t => t.pc) (step (place bytes ((regs01 0 0).setPc pc)))

theorem test_unknown_opcode : faultAt 0x10 [0x00] = some (.unsupportedInstruction 0x00 0x10, 0x10) := by decide
theorem test_unknown_opcode_with_operand : faultAt 0x10 [0x50, 5] = some (.unsupportedInstruction 0x50 0x10, 0x10) := by
  decide
theorem test_opcode_11_at_the_top : faultAt 0xFF [0xC0] = some (.unsupportedInstruction 0xC0 0xFF, 0xFF) := by decide
theorem test_operand_past_the_top : faultAt 0xFE [0xA0, 0] = some (.addressingError 256, 0xFE) := by decide
theorem test_fetch_past_the_top : faultAt 0x100 [] = some (.addressingError 256, 0x100) := by decide
theorem test_first_invalid_register : faultAt 0x40 [0xA0, 9, 10] = some (.invalidRegister 0xA0 0x40 9, 0x40) := by
  decide
theorem test_second_invalid_register : faultAt 0x40 [0xA0, 0, 8] = some (.invalidRegister 0xA0 0x40 8, 0x40) := by
  decide

/-! ## Loading, and the memory's form -/

theorem test_load :
    see (fun t => (t.mem.read 0, t.mem.read 1, t.mem.read 2)) (loadImage [300, -1] State.reset) = some (44, 255, 0) := by
  decide
theorem test_memory_write_keeps_the_form :
    Memory.write (Memory.write (Memory.write [] 9 1) 3 2) 9 0 = [(3, 2)] := by decide
theorem test_memory_form_refuses :
    Memory.wf [(3, 1), (3, 2)] = false ∧ Memory.wf [(3, 0)] = false ∧ Memory.wf [(256, 1)] = false := by decide

/-! ## Witnesses: for each statement with hypotheses, states and operands that meet them, one per clause, at the edges -/

theorem witness_EncodeOfDecodeIsTheBytes : decode [0x82, 5, 200, 9] = .ok (.ldi 5 200, [9]) := rfl

theorem witness_DecoderAcceptsExactlyTheWellFormed :
    ([0, 7] : List Byte).length = operandCount 0xA0 ∧ (RawInstr.mk 0xA0 [0, 7]).wellFormed = true ∧
    ([0, 8] : List Byte).length = operandCount 0xA0 ∧ (RawInstr.mk 0xA0 [0, 8]).wellFormed = false := by decide

/-- A running state with interrupts off and bytes at PC. -/
def codeAt (pc : Nat) (bytes : List Byte) : State := place bytes ((regs01 1 2).setPc pc)

/-- Each of these states is running and no trap is due after its poll. -/
theorem codeAt_runs (pc : Nat) (bytes : List Byte) :
    (codeAt pc bytes).run = .running ∧ trapDue (poll (codeAt pc bytes)) = none := by
  refine ⟨rfl, ?_⟩
  rw [trapDue, (poll_frame _).2.2.2.2.1]
  rfl

theorem witness_StepRunsTheDecodedInstruction :
    (codeAt 0xFD [0xA0, 0, 1]).run = .running ∧ trapDue (poll (codeAt 0xFD [0xA0, 0, 1])) = none ∧
    decode (bytesFrom (poll (codeAt 0xFD [0xA0, 0, 1])).mem (codeAt 0xFD [0xA0, 0, 1]).pc) = .ok (.add 0 1, []) :=
  ⟨rfl, by decide, rfl⟩

theorem witness_RejectedBytesAtPcFaultByName :
    (codeAt 0xFF [0x50]).run = .running ∧ trapDue (poll (codeAt 0xFF [0x50])) = none ∧
    decode (bytesFrom (poll (codeAt 0xFF [0x50])).mem (codeAt 0xFF [0x50]).pc) = .error .truncated ∧
    decode (bytesFrom (poll (codeAt 0x100 [])).mem (codeAt 0x100 []).pc) = .error .truncated ∧
    decode (bytesFrom (poll (codeAt 0xFF [0xC0])).mem (codeAt 0xFF [0xC0]).pc) = .error (.rejected .unsupported) ∧
    decode (bytesFrom (poll (codeAt 0xFE [0x47, 8])).mem (codeAt 0xFE [0x47, 8]).pc) =
      .error (.rejected (.invalidRegister 8)) := ⟨rfl, by decide, rfl, rfl, rfl, rfl⟩

theorem witness_UnknownOpcodeFaultsWithByteAndPc :
    (codeAt 0xFF [0xC0]).run = .running ∧ trapDue (poll (codeAt 0xFF [0xC0])) = none ∧
    opcodeFormat ((poll (codeAt 0xFF [0xC0])).mem.read 0xFF) = none ∧
    192 ≤ ((poll (codeAt 0xFF [0xC0])).mem.read 0xFF).toNat ∧
    opcodeFormat ((poll (codeAt 0xFE [0x50, 5])).mem.read 0xFE) = none ∧
    0xFE + operandCount ((poll (codeAt 0xFE [0x50, 5])).mem.read 0xFE) < 256 ∧
    opcodeFormat ((poll (codeAt 0xFE [0xBF])).mem.read 0xFE) = none ∧
    ((poll (codeAt 0xFE [0xBF])).mem.read 0xFE).toNat < 192 ∧
    256 ≤ 0xFE + operandCount ((poll (codeAt 0xFE [0xBF])).mem.read 0xFE) := by decide

theorem witness_InvalidRegisterByteFaultsBeforeExecution :
    (codeAt 0xFE [0x47, 8]).run = .running ∧ trapDue (poll (codeAt 0xFE [0x47, 8])) = none ∧
    opcodeFormat ((poll (codeAt 0xFE [0x47, 8])).mem.read 0xFE) = some .r ∧ 0xFE + Format.r.operandBytes < 256 ∧
    8 ≤ ((poll (codeAt 0xFE [0x47, 8])).mem.read 0xFF).toNat ∧
    opcodeFormat ((poll (codeAt 0xFD [0xA0, 7, 8])).mem.read 0xFD) = some .rr ∧
    ((poll (codeAt 0xFD [0xA0, 7, 8])).mem.read 0xFE).toNat < 8 ∧
    8 ≤ ((poll (codeAt 0xFD [0xA0, 7, 8])).mem.read 0xFF).toNat ∧
    opcodeFormat ((poll (codeAt 0xFD [0x82, 7, 255])).mem.read 0xFD) = some .ri ∧
    ((poll (codeAt 0xFD [0x82, 7, 255])).mem.read 0xFE).toNat < 8 := by decide

theorem witness_PendingEnabledLineIsTakenBeforeTheFetch :
    (pending 0xFF 0x80 9).run = .running ∧ (poll (pending 0xFF 0x80 9)).ie = true ∧
    LowestPending 7 (poll (pending 0xFF 0x80 9)) ∧ LowestPending 0 (poll (pending 1 0xFF 9)) ∧
    (poll (pending 1 0xFF 9)).reg IM &&& (poll (pending 1 0xFF 9)).reg IS ≠ 0 ∧
    (poll (regs01 0 0)).ie = false ∧
    (poll (pending 0x55 0xAA 9)).reg IM &&& (poll (pending 0x55 0xAA 9)).reg IS = 0 := by
  unfold LowestPending
  decide +kernel

theorem witness_TrapEntryPushesTheFrame :
    9 ≤ ((withSp 9).reg SP).toNat ∧ ((withSp 8).reg SP).toNat < 9 ∧ ((withSp 0).reg SP).toNat < 9 := by decide

theorem witness_IretPopsNineBytesAndEnablesInterrupts :
    ((withSp 246).reg SP).toNat ≤ 246 ∧ 247 ≤ ((withSp 247).reg SP).toNat ∧ 247 ≤ ((withSp 255).reg SP).toNat := by
  decide

theorem witness_IretRightAfterATrapRestores :
    see (fun t => (t.pc, t.reg SP)) (takeInterrupt 7 (withSp 9)) = some (0, 0) := by decide

theorem witness_NoTrapWhileInterruptsAreOff :
    (place [0x13] (withSp 0x80)).run = .running ∧ (place [0x13] (withSp 0x80)).ie = false ∧
    see (fun t => t.ie) (step (place [0x13] (withSp 0x80))) = some true := by decide

theorem witness_InterruptEnableIsInvisibleToInstructions :
    Instr.hlt ≠ .iret ∧ see (fun t => t.ie) (exec .iret (withSp 246)) = some true := by decide

theorem witness_RaisedLineTrapsBeforeTheNextInstruction :
    (pending 0x80 0 9).run = .running ∧ (pending 0x80 0 9).ie = true ∧
    ((((pending 0x80 0 9).setReg 0 7)).reg 0).toNat < 8 ∧
    (((pending 0x80 0 9).setReg 0 7).reg IM).getLsbD ((((pending 0x80 0 9).setReg 0 7)).reg 0).toNat = true ∧
    see (fun t => (t.reg IS, t.run)) (exec (.int 0) ((pending 0x80 0 9).setReg 0 7)) = some (0x80, .running) := by decide

theorem witness_TimerPollIsExact :
    1 ≤ (Seconds.mk 1 1).toRat + (Seconds.mk 1 1).toRat ∧ (Seconds.mk 1 1).toRat + (Seconds.mk 1 3).toRat < 1 := by
  norm_num [Seconds.toRat, Seconds.den]

/-- One more listed input: half a second and the key 0x48. -/
def halfAndKey : State := ((regs01 0 0).setTacc ⟨1, 1⟩).setInputs [⟨⟨1, 1⟩, some 0x48⟩]

theorem witness_PollAppliesTheSampledInput :
    halfAndKey.inputs = ⟨⟨1, 1⟩, some 0x48⟩ :: [] ∧ halfAndKey.nextInput.key = some 0x48 ∧
    (regs01 0 0).nextInput.key = none ∧ State.reset.inputs = [] ∧
    1 ≤ halfAndKey.tacc.toRat + halfAndKey.nextInput.elapsed.toRat ∧
    (regs01 0 0).tacc.toRat + (regs01 0 0).nextInput.elapsed.toRat < 1 := by
  refine ⟨rfl, rfl, rfl, rfl, ?_, ?_⟩
  · norm_num [halfAndKey, State.nextInput, Seconds.toRat, Seconds.den]
  · norm_num [regs01, withRegs, State.reset, State.resetWith, Launch.named, State.nextInput, CycleInput.quiet,
      Seconds.zero, Seconds.toRat, Seconds.den]

theorem witness_AnyTickSequenceIsPossible : State.reset.tacc.toRat < 1 := by
  norm_num [State.reset, State.resetWith, Seconds.zero, Seconds.toRat, Seconds.den]

theorem witness_EveryCyclePolls :
    (codeAt 0xFD [0xA0, 0, 1]).run = .running ∧ trapDue (poll (codeAt 0xFD [0xA0, 0, 1])) = none ∧
    see (fun t => t.pc) (step (codeAt 0xFD [0xA0, 0, 1])) = some 256 ∧
    (pending 0x80 0x80 9).run = .running ∧ trapDue (poll (pending 0x80 0x80 9)) = some 7 ∧
    see (fun t => t.pc) (step (pending 0x80 0x80 9)) = some 0 := by decide

theorem witness_DivModDivideOrFault :
    (regs01 9 1).reg 1 ≠ 0 ∧ (regs01 9 0).reg 1 = 0 ∧ (regs01 9 1).reg 0 ≠ 0 := by decide

theorem witness_QuotientAndRemainderRecombine :
    (regs01 255 1).reg 1 ≠ 0 ∧ see (fun t => t.reg 0) (exec (.div 0 1) (regs01 255 1)) = some 255 ∧
    see (fun t => t.reg 0) (exec (.mod 0 1) (regs01 255 1)) = some 0 := by decide

theorem witness_ShiftsByAnyAmount :
    8 ≤ ((regs01 255 8).reg 1).toNat ∧ see (fun t => t.reg 0) (exec (.shl 0 1) (regs01 255 8)) = some 0 ∧
    8 ≤ ((regs01 255 255).reg 1).toNat ∧ see (fun t => t.reg 0) (exec (.shr 0 1) (regs01 255 255)) = some 0 := by decide

theorem witness_CmpWritesExactlyOneFlag :
    ((regs01 0 255).reg 0).toNat < ((regs01 0 255).reg 1).toNat ∧
    ((regs01 1 0).reg 1).toNat < ((regs01 1 0).reg 0).toNat ∧
    ((regs01 255 255).reg 0).toNat = ((regs01 255 255).reg 1).toNat := by decide

theorem witness_SameRegisterAsBothOperands :
    (regs01 1 0).reg 0 ≠ 0 ∧ (regs01 1 0).reg 1 = 0 ∧
    ([.add 0 0, .sub 0 0, .mul 0 0, .and 0 0, .or 0 0, .xor 0 0, .shl 0 0, .shr 0 0, .cmp 0 0].map fun i =>
      (see (fun t => t.pc) (exec i (regs01 1 0))).isSome) = List.replicate 9 true := by decide

theorem witness_PushStoresBelowSp : 0 < ((withSp 1).reg SP).toNat ∧ ((withSp 0).reg SP).toNat = 0 := by decide

theorem witness_PopLoadsFromSp : ((withSp 254).reg SP).toNat < 255 ∧ ((withSp 255).reg SP).toNat = 255 := by decide

theorem witness_PushThenPopRoundTrip : 0 < ((withSp 1).reg SP).toNat ∧ 0 < ((withSp 255).reg SP).toNat := by decide

theorem witness_ComparisonDecidesTheJumps :
    see (fun t => t.fl) (exec (.cmp 0 1) (regs01 1 1)) = some 1 ∧ see (fun t => t.fl) (exec (.cmp 0 1) (regs01 1 2)) = some 4 ∧
    see (fun t => t.fl) (exec (.cmp 0 1) (regs01 2 1)) = some 2 := by decide

theorem witness_UpperFlagBitsAreNeverTested : (0xF9 : Byte) &&& 0b111 = 0x01 &&& 0b111 := by decide

theorem witness_IntMarksTheLinePending : 8 ≤ ((regs01 8 0).reg 0).toNat ∧ ((regs01 7 0).reg 0).toNat < 8 := by decide

theorem witness_HaltStopsTheCoreForGood : ((regs01 0 0).setRun .halted).run = .halted := rfl

theorem witness_RegistersChangeOnlyByTheirWriters :
    see (fun t => t.reg 0) (exec (.add 0 1) (regs01 1 2)) = some 3 ∧
    see (fun t => t.reg SP) (takeInterrupt 7 (withSp 9)) = some 0 ∧ (poll (regs01 0 0)).reg IS = 0 := by decide

theorem witness_MemoryChangesOnlyByItsWriters :
    see (fun t => t.mem.read 0xF4) (step ((codeAt 0x40 [0x01]).setInputs [⟨⟨0, 0⟩, some 0x48⟩])) = some 0x48 ∧
    (codeAt 0x40 [0x01]).mem.read 0xF4 = 0 ∧
    see (fun t => t.mem.read 8) (step (pending 1 1 9)) = some 0x40 ∧ (pending 1 1 9).mem.read 8 = 0 ∧
    see (fun t => t.mem.read 1) (step (codeAt 0x40 [0x84, 0, 1])) = some 2 ∧
    (codeAt 0x40 [0x84, 0, 1]).mem.read 1 = 0 := by decide

theorem witness_FlagsChangeOnlyByCmpAndIret :
    see (fun t => t.fl) (step (codeAt 0x40 [0xA7, 0, 1])) = some 4 ∧ (codeAt 0x40 [0xA7, 0, 1]).fl = 0 ∧
    see (fun t => t.fl) (step (place [0x13] (poke 0x87 [0xFF] (withSp 0x80)))) = some 0xFF := by decide

theorem witness_PcAdvancesByTheLengthOrTransfers :
    see (fun t => t.pc) (exec .hlt (regs01 0 0)) = some 0x41 ∧ see (fun t => t.pc) (exec (.jmp 0) (regs01 255 0)) = some 255 := by
  decide

theorem witness_OutputGrowsOnlyByPrnAndPra :
    see (fun t => t.out) (exec (.prn 0) (regs01 7 0)) = some [.prn 7] ∧
    see (fun t => t.out) (takeInterrupt 0 (withSp 9)) = some [] := by decide

theorem witness_OnlyHltEndsARunWithoutAFault :
    (codeAt 0xFF [0x01]).run = .running ∧ see (fun t => t.run) (step (codeAt 0xFF [0x01])) = some .halted ∧
    see (fun t => t.run) (step (codeAt 0xFE [0x65, 0])) = some .running := by decide

theorem witness_FaultsAreRecordedAndTerminal :
    seeFault (fun t => t.run) (step (codeAt 0x100 [])) =
      some (.addressingError 256, .faulted (.addressingError 256)) ∧
    seeFault (fun t => t.run) (step (State.reset.setRun (.faulted (.addressingError 256)))) =
      some (.addressingError 256, .faulted (.addressingError 256)) := by decide

theorem witness_InstructionsFaultExactlyOnTheirOwnFaults :
    instructionFault (.push 0) (withSp 1) = none ∧ instructionFault (.push 0) (withSp 0) = some (.addressingError (-1)) ∧
    instructionFault (.pop 0) (withSp 254) = none ∧ instructionFault (.pop 0) (withSp 255) = some (.addressingError 256) ∧
    instructionFault .iret (withSp 246) = none ∧ instructionFault .iret (withSp 247) = some (.addressingError 256) ∧
    instructionFault (.div 0 1) (regs01 1 1) = none ∧ instructionFault (.mod 0 1) (regs01 1 0) = some (.divideByZero 0 0 1) := by
  decide

theorem witness_UnsupportedOperationIsNeverRaised :
    State.reset.run.notFaulted = true ∧ (State.reset.setRun .halted).run.notFaulted = true := by decide

theorem witness_InstructionsIgnoreTimerInputsAndIr :
    see (fun t => t.reg 0) (exec (.div 0 1) (regs01 9 2)) = some 4 := by decide

theorem witness_MemoryReadsBackWhatWasWritten :
    (0 : Int) ≤ 0 ∧ (0 : Int) < 256 ∧ (0 : Int) ≤ 255 ∧ (255 : Int) < 256 ∧ (255 : Int) ≠ 0 ∧ (-1 : Int) < 0 ∧
    (256 : Int) ≤ 256 := by decide

theorem witness_CanonicalMemoriesThatReadAlikeAreEqual :
    Memory.wf [(0, 1), (255, 7)] = true ∧ Memory.wf (Memory.write (Memory.write [] 255 7) 0 1) = true ∧
    ∀ a, a < 256 → Memory.read [(0, 1), (255, 7)] a = (Memory.write (Memory.write [] 255 7) 0 1).read a := by decide +kernel

theorem witness_EveryMemoryContentsHasACanonicalList : (0 : Nat) < 256 ∧ (255 : Nat) < 256 := by decide

/-- `ST R0,R1` at 0x40 that stores HLT over the byte after itself. -/
def storesAhead : State := place [0x84, 0, 1] (regs01 0x43 0x01)

theorem witness_StoredByteIsTheNextOpcode :
    storesAhead.run = .running ∧
    see (fun t => (t.nextInput.key, trapDue (poll t), t.pc, storesAhead.reg 0)) (exec (.st 0 1) storesAhead) =
      some (none, none, 0x43, 0x43) ∧
    see (fun t => decodeTableWord 8 (t.mem.read t.pc).toNat) (exec (.st 0 1) storesAhead) = some (some .hlt) ∧
    ∀ rest, decode (storesAhead.reg 1 :: rest) = .ok (.hlt, rest) := by
  refine ⟨rfl, by decide, by decide, fun rest => ?_⟩
  simp [storesAhead, place, regs01, withRegs, State.setMem, State.reg, RegFile.get, decode, operandCount, decodeFetched,
    opcodeRows, findRow, Build.apply]

theorem witness_EveryStepKeepsTheInvariant :
    (codeAt 0xFD [0xA0, 0, 1]).Inv ∧ see (fun t => (t.pc, t.run)) (step (codeAt 0xFD [0xA0, 0, 1])) = some (256, .running) ∧
    ((pending 1 1 9).setPc 256).Inv ∧ see (fun t => t.ie) (step ((pending 1 1 9).setPc 256)) = some false := by decide

theorem witness_ResetMeetsTheInvariant :
    Memory.wf [] = true ∧ Memory.wf [(0, 1), (255, 255)] = true := by decide

theorem witness_PcStaysBelow259 :
    ((pending 1 1 9).setPc 258).pc ≤ 258 ∧ see (fun t => t.ie) (step ((pending 1 1 9).setPc 258)) = some false ∧
    see (fun t => t.pc) (takeInterrupt 0 (withSp 9)) = some 0 ∧
    transferTarget (.jmp 0) (regs01 255 0) = some 255 ∧ see (fun t => t.pc) (exec (.jmp 0) (regs01 255 0)) = some 255 := by
  decide

theorem witness_ResetLeavesTheStatedValues :
    (0 : RegNum) ≠ SP ∧ (6 : RegNum) ≠ SP ∧ (List.replicate 256 (1 : Int)).length ≤ 256 ∧ ([] : List Int).length ≤ 256 :=
  ⟨by decide, by decide, List.length_replicate.le, Nat.zero_le _⟩

theorem witness_LoadCopiesTheImageOrFaults :
    (List.replicate 256 (1 : Int)).length ≤ 256 ∧ 256 < (List.replicate 257 (1 : Int)).length :=
  ⟨List.length_replicate.le, by rw [List.length_replicate]; omega⟩

end Sys2Proof.Tests
end

section
/-! The canonical memory of a function: `Memory.ofFun` lists a range of addresses, and what it lists is read back. -/

namespace Sys2Proof.Machine

/-- The entries `(a, f a)` for the addresses of a list, in its order, without those that hold the unlisted value. -/
def Memory.tabulate (f : Nat → Byte) (addrs : List Nat) : Memory :=
  (addrs.map fun a => (a, f a)).filter fun c => decide (c.2 ≠ Config.memFill)

theorem Memory.ofFun_eq_tabulate (f : Nat → Byte) :
    Memory.ofFun f = Memory.tabulate f (List.range' 0 Config.memSize) := by
  rw [← List.range_eq_range']
  rfl

@[simp] theorem Memory.tabulate_nil (f : Nat → Byte) : Memory.tabulate f [] = [] := rfl

theorem Memory.tabulate_cons_unlisted {f : Nat → Byte} {a : Nat} (h : f a = Config.memFill) (addrs : List Nat) :
    Memory.tabulate f (a :: addrs) = Memory.tabulate f addrs := by
  simp [Memory.tabulate, h]

theorem Memory.tabulate_cons_listed {f : Nat → Byte} {a : Nat} (h : f a ≠ Config.memFill) (addrs : List Nat) :
    Memory.tabulate f (a :: addrs) = (a, f a) :: Memory.tabulate f addrs := by
  simp [Memory.tabulate, h]

theorem Memory.read_tabulate (f : Nat → Byte) (addrs : List Nat) (a : Nat) :
    Memory.read (Memory.tabulate f addrs) a = if a ∈ addrs then f a else Config.memFill := by
  induction addrs with
  | nil => simp
  | cons b addrs ih =>
    by_cases hb : f b = Config.memFill
    · rw [Memory.tabulate_cons_unlisted hb, ih]
      by_cases hab : a = b
      · simp [hab, hb]
      · simp [hab]
    · rw [Memory.tabulate_cons_listed hb, Memory.read_cons, ih]
      by_cases hab : a = b
      · simp [hab]
      · simp [hab, Ne.symm hab]

/-- The addresses of a range rise, so their entries are in the canonical order. -/
theorem Memory.wfFrom_tabulate_range' (f : Nat → Byte) (low n : Nat) (h : low + n ≤ Config.memSize) :
    Memory.wfFrom low (Memory.tabulate f (List.range' low n)) = true := by
  induction n generalizing low with
  | zero => rfl
  | succ n ih =>
    have hrest := ih (low + 1) (by omega)
    rw [List.range'_succ]
    by_cases hlow : f low = Config.memFill
    · rw [Memory.tabulate_cons_unlisted hlow]
      exact Memory.wfFrom_mono (Nat.le_succ low) hrest
    · rw [Memory.tabulate_cons_listed hlow]
      exact (Memory.wfFrom_cons _ _ _ _).2 ⟨le_rfl, by omega, hlow, hrest⟩

theorem Memory.wf_ofFun (f : Nat → Byte) : (Memory.ofFun f).wf = true := by
  rw [Memory.ofFun_eq_tabulate]
  exact Memory.wfFrom_tabulate_range' f 0 Config.memSize (by omega)

theorem Memory.read_ofFun (f : Nat → Byte) {a : Nat} (ha : a < Config.memSize) : (Memory.ofFun f).read a = f a := by
  have hmem : a ∈ List.range' 0 Config.memSize := List.mem_range'_1.2 ⟨Nat.zero_le a, by omega⟩
  rw [Memory.ofFun_eq_tabulate, Memory.read_tabulate, if_pos hmem]

/-- Settles O51: `Memory.ofFun` tabulates the rising addresses 0..255, and each is read back whether it is listed or holds
the unlisted value. -/
theorem everyMemoryContentsHasACanonicalList : Obligations.EveryMemoryContentsHasACanonicalList :=
  fun f => ⟨Memory.wf_ofFun f, fun _ ha => Memory.read_ofFun f ha⟩

end Sys2Proof.Machine
end

section
/-! What an instruction that answers a next state has done, said once, and what a step that answers one ran. -/

namespace Sys2Proof.Machine

/-! ## The effect of an instruction -/

/-- Everything an instruction can do when it answers a next state, one case per shape of meaning. `transferTarget` says
in each case where control goes. -/
inductive Effect (i : Instr) (s : State) : State → Prop
  | halt (hi : i = .hlt) : Effect i s ((s.advance 1).setRun .halted)
  | iret {t : State} (hi : i = .iret) (ht : returnFromInterrupt s = .next t) : Effect i s t
  | compare (a b : RegNum) (hi : i = .cmp a b) :
      Effect i s ((s.setFl (compareFlags (s.reg a) (s.reg b))).advance 3)
  | push (r : RegNum) (hi : i = .push r) : Effect i s ((s.pushed (uint (s.reg r))).advance 2)
  | pop (r : RegNum) (hi : i = .pop r) :
      Effect i s ((s.popped.setReg r (s.mem.read (s.reg SP).toNat)).advance 2)
  | store (a b : RegNum) (hi : i = .st a b) :
      Effect i s ((s.setMem (s.mem.write (s.reg a).toNat (s.reg b))).advance 3)
  | writeReg (r : RegNum) (v : Byte) (hw : r ∈ writtenRegs i) (hn : transferTarget i s = none) :
      Effect i s ((s.setReg r v).advance i.length)
  | emit (e : OutEvent) (hn : transferTarget i s = none) : Effect i s ((s.emit e).advance i.length)
  | jump (r : RegNum) (hj : transferTarget i s = some (s.reg r).toNat) : Effect i s (s.jump (s.reg r))
  | fallThrough (hn : transferTarget i s = none) : Effect i s (s.advance i.length)

/-- Any instruction that writes one of its registers and advances. -/
theorem Effect.of_writeReg {i : Instr} {s t : State} (r : RegNum) (v : Byte) (hw : r ∈ writtenRegs i)
    (hn : transferTarget i s = none)
    (h : (Host.Outcome.next ((s.setReg r v).advance i.length) : Result) = .next t) : Effect i s t := by
  cases h
  exact .writeReg r v hw hn

/-- A jump goes to its register's value or falls through, as its condition says. -/
theorem Effect.of_jumpWhen {i : Instr} {s t : State} {taken : Bool} {r : RegNum}
    (hj : transferTarget i s = if taken then some (s.reg r).toNat else none) (hl : i.length = 2)
    (h : jumpWhen taken r s = .next t) : Effect i s t := by
  cases taken with
  | true => cases h; exact .jump r hj
  | false => cases h; exact hl ▸ .fallThrough hj

theorem divisionAlu_next {f : Byte → Byte → Byte} {a b : RegNum} {s t : State} :
    divisionAlu f a b s = .next t ↔ s.reg b ≠ 0 ∧ binaryAlu f a b s = .next t := by
  unfold divisionAlu
  by_cases hb : s.reg b = 0
  · rw [if_pos hb]
    exact ⟨fun h => absurd h (raise_ne_next _ _ _), fun h => absurd hb h.1⟩
  · rw [if_neg hb, and_iff_right hb]

theorem execDiv_next {a b : RegNum} {s t : State} :
    execDiv a b s = .next t ↔ s.reg b ≠ 0 ∧ binaryAlu aluDiv a b s = .next t :=
  divisionAlu_next

theorem execMod_next {a b : RegNum} {s t : State} :
    execMod a b s = .next t ↔ s.reg b ≠ 0 ∧ binaryAlu aluMod a b s = .next t :=
  divisionAlu_next

theorem execPush_next {r : RegNum} {s t : State} :
    execPush r s = .next t ↔ 0 < (s.reg SP).toNat ∧ (s.pushed (uint (s.reg r))).advance 2 = t := by
  rw [execPush, pushByte_next, Host.Outcome.next.injEq]

theorem execPop_next {r : RegNum} {s t : State} :
    execPop r s = .next t ↔
      (s.reg SP).toNat < 255 ∧ (s.popped.setReg r (s.mem.read (s.reg SP).toNat)).advance 2 = t := by
  rw [execPop, popByte_next, Host.Outcome.next.injEq]

@[simp] theorem loadIndirect_eq (a b : RegNum) (s : State) :
    loadIndirect a b s = .next ((s.setReg a (s.mem.read (s.reg b).toNat)).advance 3) :=
  memRead_uint _ _ _

@[simp] theorem storeIndirect_eq (a b : RegNum) (s : State) :
    storeIndirect a b s = .next ((s.setMem (s.mem.write (s.reg a).toNat (s.reg b))).advance 3) := by
  rw [storeIndirect, indirectAddress, memWrite_uint, u8_uint]

/-- The one inversion of `exec`: an instruction that answers a next state had one of the effects above. -/
theorem exec_effect {i : Instr} {s t : State} (h : exec i s = .next t) : Effect i s t := by
  cases i with
  | hlt => cases h; exact .halt rfl
  | iret => exact .iret rfl h
  | push r =>
    obtain ⟨-, rfl⟩ := execPush_next.1 h
    exact .push r rfl
  | pop r =>
    obtain ⟨-, rfl⟩ := execPop_next.1 h
    exact .pop r rfl
  | prn r => cases h; exact .emit _ rfl
  | pra r => cases h; exact .emit _ rfl
  | int r => exact .of_writeReg IS _ (List.mem_singleton_self _) rfl h
  | jmp r => exact .of_jumpWhen (taken := true) (r := r) rfl rfl h
  | jeq r => exact .of_jumpWhen (by rw [condEq_bit]; rfl) rfl h
  | jne r => exact .of_jumpWhen (by rw [condNe_bit]; rfl) rfl h
  | jgt r => exact .of_jumpWhen (by rw [condGt_bit]; rfl) rfl h
  | jlt r => exact .of_jumpWhen (by rw [condLt_bit]; rfl) rfl h
  | jle r => exact .of_jumpWhen (by rw [condLe_bit]; rfl) rfl h
  | jge r => exact .of_jumpWhen (by rw [condGe_bit]; rfl) rfl h
  | inc r => exact .of_writeReg r _ (List.mem_singleton_self _) rfl h
  | dec r => exact .of_writeReg r _ (List.mem_singleton_self _) rfl h
  | not r => exact .of_writeReg r _ (List.mem_singleton_self _) rfl h
  | ldi a imm => exact .of_writeReg a _ (List.mem_singleton_self _) rfl h
  | ld a b => exact .of_writeReg a _ (List.mem_singleton_self _) rfl ((loadIndirect_eq a b s).symm.trans h)
  | st a b =>
    cases (storeIndirect_eq a b s).symm.trans h
    exact .store a b rfl
  | add a b => exact .of_writeReg a _ (List.mem_singleton_self _) rfl h
  | sub a b => exact .of_writeReg a _ (List.mem_singleton_self _) rfl h
  | mul a b => exact .of_writeReg a _ (List.mem_singleton_self _) rfl h
  | div a b => exact .of_writeReg a _ (List.mem_singleton_self _) rfl (execDiv_next.1 h).2
  | mod a b => exact .of_writeReg a _ (List.mem_singleton_self _) rfl (execMod_next.1 h).2
  | cmp a b => cases h; exact .compare a b rfl
  | and a b => exact .of_writeReg a _ (List.mem_singleton_self _) rfl h
  | or a b => exact .of_writeReg a _ (List.mem_singleton_self _) rfl h
  | xor a b => exact .of_writeReg a _ (List.mem_singleton_self _) rfl h
  | shl a b => exact .of_writeReg a _ (List.mem_singleton_self _) rfl h
  | shr a b => exact .of_writeReg a _ (List.mem_singleton_self _) rfl h

/-! ## What every effect leaves -/

theorem mem_writtenRegs_iret : ∀ r : RegNum, r ∈ writtenRegs .iret := by decide

theorem Effect.keepsRegs {i : Instr} {s t : State} (h : Effect i s t) : KeepsRegsBut (writtenRegs i) s t := by
  intro r hr
  cases h with
  | halt hi => rfl
  | iret hi ht => exact absurd (hi ▸ mem_writtenRegs_iret r) hr
  | compare a b hi => rfl
  | push q hi =>
    subst hi
    exact s.pushed_reg_ne (uint (s.reg q)) (List.ne_of_not_mem_cons hr)
  | pop q hi =>
    subst hi
    obtain ⟨hq, hsp⟩ : r ≠ q ∧ r ≠ SP := by simpa [writtenRegs] using hr
    simp [hq, hsp]
  | store a b hi => rfl
  | writeReg q v hw hn => exact State.reg_setReg_ne _ _ fun hrq => hr (hrq ▸ hw)
  | emit e hn => rfl
  | jump q hj => rfl
  | fallThrough hn => rfl

theorem Effect.fl {i : Instr} {s t : State} (h : Effect i s t) :
    t.fl = s.fl ∨ i = .iret ∨ ∃ a b, i = .cmp a b := by
  cases h with
  | iret hi ht => exact .inr (.inl hi)
  | compare a b hi => exact .inr (.inr ⟨a, b, hi⟩)
  | halt | push | pop | store | writeReg | emit | jump | fallThrough => exact .inl rfl

theorem Effect.run {i : Instr} {s t : State} (h : Effect i s t) :
    t.run = s.run ∨ (t.run = .halted ∧ i = .hlt) := by
  cases h with
  | halt hi => exact .inr ⟨rfl, hi⟩
  | iret hi ht =>
    obtain ⟨-, -, -, hrun, -⟩ := returnFromInterrupt_next ht
    exact .inl hrun
  | compare | push | pop | store | writeReg | emit | jump | fallThrough => exact .inl rfl

/-- The last of IRET's nine pops is PC (R221). -/
theorem returnFromInterrupt_next_pc {s t : State} (h : returnFromInterrupt s = .next t) :
    t.pc = (s.mem.read ((s.reg SP).toNat + 8)).toNat := by
  rw [returnFromInterrupt_eq] at h
  split_ifs at h
  · cases h; rfl
  · exact absurd h (raise_ne_next _ _ _)
  · exact absurd h (raise_ne_next _ _ _)

/-- An instruction with no transfer target advances by its length; one with a target goes there, and it is a byte. -/
theorem Effect.pc {i : Instr} {s t : State} (h : Effect i s t) :
    (transferTarget i s = none ∧ t.pc = s.pc + i.length) ∨
      ∃ b : Byte, transferTarget i s = some b.toNat ∧ t.pc = b.toNat := by
  cases h with
  | halt hi | compare _ _ hi | push _ hi | pop _ hi | store _ _ hi => subst hi; exact .inl ⟨rfl, rfl⟩
  | iret hi ht => subst hi; exact .inr ⟨_, rfl, returnFromInterrupt_next_pc ht⟩
  | writeReg _ _ _ hn | emit _ hn | fallThrough hn => exact .inl ⟨hn, rfl⟩
  | jump r hj => exact .inr ⟨s.reg r, hj, rfl⟩

/-! ## The instruction a step ran -/

/-- The bytes from the instruction at PC on: its opcode, its operands and the rest. -/
theorem bytesFrom_pc {s : State} (h : s.pc + operandCount (s.mem.read s.pc) < 256) :
    ∃ rest, bytesFrom s.mem s.pc = s.mem.read s.pc :: (s.operandsAt ++ rest) := by
  have htake := bytesFrom_take s.mem (a := s.pc + 1) (n := operandCount (s.mem.read s.pc)) (by omega)
  refine ⟨(bytesFrom s.mem (s.pc + 1)).drop (operandCount (s.mem.read s.pc)), ?_⟩
  rw [bytesFrom_cons _ (by omega), State.operandsAt, ← htake, List.take_append_drop]

/-- What the fetch decodes is the instruction at PC. -/
theorem instructionAt_of_decodeFetched {s : State} {i : Instr} (h : s.pc + operandCount (s.mem.read s.pc) < 256)
    (hi : decodeFetched (s.mem.read s.pc) s.operandsAt = .ok i) : InstructionAt i s := by
  obtain ⟨-, hlength, hcount⟩ := decodeFetched_ok hi
  obtain ⟨rest, hbytes⟩ := bytesFrom_pc h
  refine ⟨rest, ?_⟩
  rw [hbytes, decode_append hcount hlength, hi]

/-- What a step that answers a next state did: a halted core stood still; a running one took the due trap, or the
instruction at PC had its effect on the polled state with IR at the opcode. -/
theorem step_next_effect {s t : State} (h : step s = .next t) :
    (s.run = .halted ∧ t = s) ∨
    (s.run = .running ∧ ∃ l, trapDue (poll s) = some l ∧ takeInterrupt l (poll s) = .next t) ∨
    (s.run = .running ∧ trapDue (poll s) = none ∧ (poll s).pc < 256 ∧
      ∃ i, InstructionAt i (poll s) ∧ Effect i ((poll s).setIr ((poll s).mem.read (poll s).pc)) t) := by
  rcases step_next h with hhalt | htrap | ⟨hrun, hno, i, hin, -, hi, ht⟩
  · exact .inl hhalt
  · exact .inr (.inl htrap)
  · exact .inr (.inr ⟨hrun, hno, by omega, i, instructionAt_of_decodeFetched hin hi, exec_effect ht⟩)

end Sys2Proof.Machine
end

section
/-! Who changes which element: the register file (R25), FL (R27), the engine state (R242, R295) and PC (R31). -/

namespace Sys2Proof.Machine

/-- A trap that goes on writes no register but IS and SP (R279). -/
theorem takeInterrupt_keepsRegs {l : Line} {s t : State} (h : takeInterrupt l s = .next t) :
    KeepsRegsBut [IS, SP] s t := by
  intro r hr
  obtain ⟨his, hsp⟩ : r ≠ IS ∧ r ≠ SP := by simpa using hr
  rw [takeInterrupt_eq] at h
  split_ifs at h
  · cases h
    rw [State.jump_reg, (State.pushAll_keeps _ _).1 r hsp, State.trapBase_reg_ne s his]
  · exact absurd h (raise_ne_next _ _ _)

/-! ## The bits of IS a poll can set -/

theorem timerBit_bit (j : Nat) : timerBit.getLsbD j = decide (j = 0) := by
  simp [timerBit]

theorem keyBit_bit (j : Nat) : keyBit.getLsbD j = decide (j = 1) := by
  rw [show keyBit = BitVec.twoPow 8 1 from rfl, BitVec.getLsbD_twoPow]
  simp [eq_comm]

theorem pollTimer_is_bit (e : Seconds) (s : State) {j : Nat} (hj : j ≠ 0) :
    ((pollTimer e s).reg IS).getLsbD j = (s.reg IS).getLsbD j := by
  rw [pollTimer_eq]
  split_ifs
  · simp [timerBit_bit, hj]
  · rfl

theorem pollKey_is_bit (key : Option Byte) (s : State) {j : Nat} (hj : j ≠ 1) :
    ((pollKey key s).reg IS).getLsbD j = (s.reg IS).getLsbD j := by
  cases key with
  | none => rfl
  | some b => simp [pollKey, keyBit_bit, hj]

/-- A poll sets no bit of IS from bit 2 on. -/
theorem poll_is_bit (s : State) {j : Nat} (hj : 2 ≤ j) : ((poll s).reg IS).getLsbD j = (s.reg IS).getLsbD j :=
  (pollKey_is_bit _ _ (by omega)).trans (pollTimer_is_bit _ _ (by omega))

theorem poll_keepsRegs (s : State) : KeepsRegsBut [IS] s (poll s) :=
  fun r hr => (poll_frame s).1 r (List.ne_of_not_mem_cons hr)

/-! ## The obligations -/

/-- Settles O39: the effect of an instruction writes only `writtenRegs`, a trap only IS and SP, a poll only the two low
bits of IS. -/
theorem registersChangeOnlyByTheirWriters : Obligations.RegistersChangeOnlyByTheirWriters :=
  ⟨fun _ _ _ h => (exec_effect h).keepsRegs, fun _ _ _ h => takeInterrupt_keepsRegs h,
    fun s => ⟨poll_keepsRegs s, fun _ hj => poll_is_bit s hj⟩⟩

/-- Settles O41: neither standing still nor the poll nor a trap writes FL, and of the instructions' effects only CMP's
and IRET's do. -/
theorem flagsChangeOnlyByCmpAndIret : Obligations.FlagsChangeOnlyByCmpAndIret := by
  intro s t h hne
  obtain ⟨-, hpoll, -⟩ := poll_frame s
  rcases step_next_effect h with ⟨-, rfl⟩ | ⟨-, l, -, ht⟩ | ⟨hrun, hno, -, i, hi, heffect⟩
  · exact absurd rfl hne
  · obtain ⟨-, htrap, -⟩ := takeInterrupt_next ht
    exact absurd (htrap.trans hpoll) hne
  · rcases heffect.fl with hfl | hwriter
    · exact absurd (hfl.trans hpoll) hne
    · exact ⟨hrun, hno, i, hi, hwriter⟩

/-- Settles O44: the poll and a trap leave the engine running, and of the instructions' effects only HLT's stops it. -/
theorem onlyHltEndsARunWithoutAFault : Obligations.OnlyHltEndsARunWithoutAFault := by
  intro s t hs h
  obtain ⟨-, -, -, -, -, hpoll, -⟩ := poll_frame s
  rcases step_next_effect h with ⟨-, rfl⟩ | ⟨-, l, -, ht⟩ | ⟨-, hno, -, i, hi, heffect⟩
  · exact .inl hs
  · obtain ⟨-, -, -, htrap, -⟩ := takeInterrupt_next ht
    exact .inl (htrap.trans (hpoll.trans hs))
  · rcases heffect.run with hkeep | ⟨hhalt, rfl⟩
    · exact .inl (hkeep.trans (hpoll.trans hs))
    · exact .inr ⟨hhalt, hno, hi⟩

theorem length_le_three (i : Instr) : i.length ≤ 3 := by
  have : i.format.operandBytes ≤ 2 := by cases i.format <;> simp [Format.operandBytes]
  exact Nat.succ_le_succ this

/-- A trap leaves PC at a vector entry's byte. -/
theorem takeInterrupt_pc_le {l : Line} {s t : State} (h : takeInterrupt l s = .next t) : t.pc ≤ 255 := by
  obtain ⟨-, -, -, -, -, -, -, -, hpc, -⟩ := takeInterrupt_next h
  have := (t.mem.read (248 + l.val)).isLt
  omega

/-- A control transfer leaves PC at a byte. -/
theorem Effect.pc_le_of_transfer {i : Instr} {s t : State} (h : Effect i s t) (hj : transferTarget i s ≠ none) :
    t.pc ≤ 255 := by
  rcases h.pc with ⟨hn, -⟩ | ⟨b, -, hb⟩
  · exact absurd hn hj
  · have := b.isLt
    omega

/-- An instruction leaves PC at a byte or at most three past its own address. -/
theorem Effect.pc_le {i : Instr} {s t : State} (h : Effect i s t) (hpc : s.pc < 256) : t.pc ≤ 258 := by
  rcases h.pc with ⟨-, hadvance⟩ | ⟨b, -, hb⟩
  · have := length_le_three i
    omega
  · have := b.isLt
    omega

theorem step_pc_le {s t : State} (hs : s.pc ≤ 258) (h : step s = .next t) : t.pc ≤ 258 := by
  rcases step_next_effect h with ⟨-, rfl⟩ | ⟨-, l, -, ht⟩ | ⟨-, -, hpc, i, -, heffect⟩
  · exact hs
  · exact (takeInterrupt_pc_le ht).trans (by omega)
  · exact heffect.pc_le hpc

/-- Settles O55: an instruction is fetched below 256 and advances by at most 3; a trap or transfer sets PC to a byte. -/
theorem pcStaysBelow259 : Obligations.PcStaysBelow259 :=
  ⟨fun _ _ hs h => step_pc_le hs h, fun _ _ _ h => takeInterrupt_pc_le h,
    fun _ _ _ h hj => (exec_effect h).pc_le_of_transfer hj⟩

end Sys2Proof.Machine
end

section
/-! Elements of the state that instructions do not read: IE (R33, R288), the accumulator, the coming inputs, the count
of polls and IR (R32, R35). Each is a change of state that every operation of an instruction commutes with. -/

namespace Sys2Proof.Machine

/-- A change of state that touches nothing an instruction reads (but IR of a DivideByZero, which `exec_map` asks for
apart) and commutes with every write of an instruction (but IRET's of IE, likewise). -/
structure Unread (f : State → State) : Prop where
  reg (s : State) (r : RegNum) : (f s).reg r = s.reg r
  fl (s : State) : (f s).fl = s.fl
  pc (s : State) : (f s).pc = s.pc
  mem (s : State) : (f s).mem = s.mem
  out (s : State) : (f s).out = s.out
  setReg (s : State) (r : RegNum) (v : Byte) : f (s.setReg r v) = (f s).setReg r v
  setFl (s : State) (v : Byte) : f (s.setFl v) = (f s).setFl v
  setPc (s : State) (n : Nat) : f (s.setPc n) = (f s).setPc n
  setMem (s : State) (m : Memory) : f (s.setMem m) = (f s).setMem m
  setOut (s : State) (o : List OutEvent) : f (s.setOut o) = (f s).setOut o
  setRun (s : State) (r : RunState) : f (s.setRun r) = (f s).setRun r

theorem unread_setIe (b : Bool) : Unread fun s => s.setIe b := by
  constructor <;> intros <;> rfl

theorem unread_setTacc (q : Seconds) : Unread fun s => s.setTacc q := by
  constructor <;> intros <;> rfl

theorem unread_setInputs (l : List CycleInput) : Unread fun s => s.setInputs l := by
  constructor <;> intros <;> rfl

theorem unread_setPolled (k : Nat) : Unread fun s => s.setPolled k := by
  constructor <;> intros <;> rfl

theorem unread_setIr (v : Byte) : Unread fun s => s.setIr v := by
  constructor <;> intros <;> rfl

@[simp] theorem mapState_next (f : State → State) (t : State) : mapState f (.next t) = .next (f t) := rfl

section
variable {f : State → State} (hf : Unread f)
include hf

/-! ## The updates of the state -/

theorem Unread.advance (s : State) (n : Nat) : f (s.advance n) = (f s).advance n := by
  rw [State.advance, hf.setPc, State.advance, hf.pc]

theorem Unread.jump (s : State) (v : Byte) : f (s.jump v) = (f s).jump v := hf.setPc s v.toNat

theorem Unread.emit (s : State) (e : OutEvent) : f (s.emit e) = (f s).emit e := by
  rw [State.emit, hf.setOut, State.emit, hf.out]

theorem Unread.pushed (s : State) (v : Int) : f (s.pushed v) = (f s).pushed v := by
  simp only [State.pushed, hf.setMem, hf.setReg, hf.reg, hf.mem]

theorem Unread.popped (s : State) : f s.popped = (f s).popped := by
  simp only [State.popped, hf.setReg, hf.reg]

theorem Unread.poppedInto (s : State) (rs : List RegNum) : f (s.poppedInto rs) = (f s).poppedInto rs := by
  induction rs generalizing s with
  | nil => rfl
  | cons r rs ih => simp only [State.poppedInto, ih, hf.setReg, hf.popped, hf.reg, hf.mem]

/-! ## The shapes of the instructions -/

theorem Unread.raise (info : FaultInfo) (s : State) : raise info (f s) = mapState f (raise info s) := by
  simp only [Machine.raise, mapState, hf.setRun]

theorem Unread.binaryAlu (g : Byte → Byte → Byte) (a b : RegNum) (s : State) :
    binaryAlu g a b (f s) = mapState f (binaryAlu g a b s) := by
  simp only [Machine.binaryAlu, mapState_next, hf.advance, hf.setReg, hf.reg]

theorem Unread.unaryAlu (g : Byte → Byte) (r : RegNum) (s : State) :
    unaryAlu g r (f s) = mapState f (unaryAlu g r s) := by
  simp only [Machine.unaryAlu, mapState_next, hf.advance, hf.setReg, hf.reg]

theorem Unread.divisionAlu (g : Byte → Byte → Byte) (a b : RegNum) {s : State} (hir : s.reg b = 0 → (f s).ir = s.ir) :
    divisionAlu g a b (f s) = mapState f (divisionAlu g a b s) := by
  unfold Machine.divisionAlu
  rw [hf.reg]
  by_cases hb : s.reg b = 0
  · rw [if_pos hb, if_pos hb, hir hb, hf.raise]
  · rw [if_neg hb, if_neg hb, hf.binaryAlu]

theorem Unread.jumpWhen (taken : Bool) (r : RegNum) (s : State) :
    jumpWhen taken r (f s) = mapState f (jumpWhen taken r s) := by
  cases taken with
  | true => simp only [Machine.jumpWhen, if_true, mapState_next, hf.jump, hf.reg]
  | false => simp only [Machine.jumpWhen, Bool.false_eq_true, if_false, mapState_next, hf.advance]

theorem Unread.jumpOnFlags (cond : Byte → Bool) (r : RegNum) (s : State) :
    Machine.jumpWhen (cond (f s).fl) r (f s) = mapState f (Machine.jumpWhen (cond s.fl) r s) := by
  rw [hf.fl, hf.jumpWhen]

theorem Unread.execPush (r : RegNum) (s : State) : execPush r (f s) = mapState f (execPush r s) := by
  simp only [Machine.execPush, pushByte_eq, hf.reg]
  split_ifs
  · simp only [mapState_next, hf.advance, hf.pushed]
  · exact hf.raise _ _

theorem Unread.execPop (r : RegNum) (s : State) : execPop r (f s) = mapState f (execPop r s) := by
  simp only [Machine.execPop, popByte_eq, hf.reg, hf.mem]
  split_ifs
  · simp only [mapState_next, hf.advance, hf.setReg, hf.popped]
  · exact hf.raise _ _

theorem Unread.returnFromInterrupt (hie : ∀ t, f (t.setIe true) = (f t).setIe true) (s : State) :
    returnFromInterrupt (f s) = mapState f (returnFromInterrupt s) := by
  simp only [returnFromInterrupt_eq, hf.reg, hf.mem, ← hf.poppedInto, ← hf.popped, ← hf.setFl, ← hf.jump, ← hie]
  split_ifs
  · rfl
  · exact hf.raise _ _
  · exact hf.raise _ _

/-- Changing an element that an instruction does not read changes its outcome by just that element: but for IR in the
record of a DivideByZero, and for IE, which IRET writes. -/
theorem exec_map {i : Instr} {s : State}
    (hir : ∀ a b, i = .div a b ∨ i = .mod a b → s.reg b = 0 → (f s).ir = s.ir)
    (hie : i = .iret → ∀ t, f (t.setIe true) = (f t).setIe true) : exec i (f s) = mapState f (exec i s) := by
  cases i with
  | hlt => simp only [exec, execHlt, mapState_next, hf.setRun, hf.advance]
  | iret => exact hf.returnFromInterrupt (hie rfl) s
  | push r => exact hf.execPush r s
  | pop r => exact hf.execPop r s
  | prn r => simp only [exec, execPrn, mapState_next, hf.advance, hf.emit, hf.reg]
  | pra r => simp only [exec, execPra, mapState_next, hf.advance, hf.emit, hf.reg]
  | int r => simp only [exec, execInt, mapState_next, hf.advance, hf.setReg, hf.reg]
  | jmp r => exact hf.jumpWhen true r s
  | jeq r => exact hf.jumpOnFlags condEq r s
  | jne r => exact hf.jumpOnFlags condNe r s
  | jgt r => exact hf.jumpOnFlags condGt r s
  | jlt r => exact hf.jumpOnFlags condLt r s
  | jle r => exact hf.jumpOnFlags condLe r s
  | jge r => exact hf.jumpOnFlags condGe r s
  | inc r => exact hf.unaryAlu aluInc r s
  | dec r => exact hf.unaryAlu aluDec r s
  | not r => exact hf.unaryAlu aluNot r s
  | ldi a imm => simp only [exec, execLdi, loadImmediate, mapState_next, hf.advance, hf.setReg]
  | ld a b => simp only [exec, execLd, loadIndirect_eq, mapState_next, hf.advance, hf.setReg, hf.reg, hf.mem]
  | st a b => simp only [exec, execSt, storeIndirect_eq, mapState_next, hf.advance, hf.setMem, hf.reg, hf.mem]
  | add a b => exact hf.binaryAlu aluAdd a b s
  | sub a b => exact hf.binaryAlu aluSub a b s
  | mul a b => exact hf.binaryAlu aluMul a b s
  | div a b => exact hf.divisionAlu aluDiv a b (hir a b (.inl rfl))
  | mod a b => exact hf.divisionAlu aluMod a b (hir a b (.inr rfl))
  | cmp a b => simp only [exec, execCmp, mapState_next, hf.advance, hf.setFl, hf.reg]
  | and a b => exact hf.binaryAlu (fun x y => x &&& y) a b s
  | or a b => exact hf.binaryAlu (fun x y => x ||| y) a b s
  | xor a b => exact hf.binaryAlu (fun x y => x ^^^ y) a b s
  | shl a b => exact hf.binaryAlu aluShl a b s
  | shr a b => exact hf.binaryAlu aluShr a b s

end

/-! ## IE -/

theorem exec_iret (s : State) : exec .iret s = returnFromInterrupt s := rfl

/-- A return from interrupt sets IE, so it forgets what IE was. -/
theorem returnFromInterrupt_setIe {s t : State} (b : Bool) (h : returnFromInterrupt s = .next t) :
    returnFromInterrupt (s.setIe b) = .next t := by
  have hpops : (s.setIe b).poppedInto returnOrder = (s.poppedInto returnOrder).setIe b :=
    ((unread_setIe b).poppedInto s returnOrder).symm
  rw [returnFromInterrupt_eq] at h ⊢
  split_ifs at h with hsp
  · rw [State.setIe_reg, State.setIe_mem, if_pos hsp, hpops, ← h]
    generalize s.poppedInto returnOrder = u
    rfl
  · exact absurd h (raise_ne_next _ _ _)
  · exact absurd h (raise_ne_next _ _ _)

/-- Settles O14: every instruction but IRET commutes with a change of IE, and IRET overwrites it. -/
theorem interruptEnableIsInvisibleToInstructions : Obligations.InterruptEnableIsInvisibleToInstructions := by
  intro i s b
  refine ⟨fun hi => exec_map (unread_setIe b) (fun _ _ _ _ => rfl) fun hiret => absurd hiret hi, ?_⟩
  rintro rfl t h
  rw [exec_iret] at h ⊢
  exact returnFromInterrupt_setIe b h

/-! ## The timer, the inputs and IR -/

/-- A division that answers a next state had a divisor other than 0 (R114, R115). -/
theorem exec_division_next {i : Instr} {a b : RegNum} {s t : State} (hi : i = .div a b ∨ i = .mod a b)
    (h : exec i s = .next t) : s.reg b ≠ 0 := by
  rcases hi with rfl | rfl
  · exact (execDiv_next.1 h).1
  · exact (execMod_next.1 h).1

/-- Another IR gives the same next state with that IR: only the record of a DivideByZero reads IR. -/
theorem exec_setIr_next {i : Instr} {s t : State} (v : Byte) (h : exec i s = .next t) :
    exec i (s.setIr v) = .next (t.setIr v) := by
  have hmap := exec_map (unread_setIr v) (fun a b hi hb => absurd hb (exec_division_next hi h)) fun _ _ => rfl
  rw [hmap, h, mapState_next]

/-- Settles O48: no instruction reads these elements, and IRET's write of IE does not meet them. -/
theorem instructionsIgnoreTimerInputsAndIr : Obligations.InstructionsIgnoreTimerInputsAndIr := fun _ _ =>
  ⟨fun q => exec_map (unread_setTacc q) (fun _ _ _ _ => rfl) fun _ _ => rfl,
    fun l => exec_map (unread_setInputs l) (fun _ _ _ _ => rfl) fun _ _ => rfl,
    fun k => exec_map (unread_setPolled k) (fun _ _ _ _ => rfl) fun _ _ => rfl,
    fun v _ h => exec_setIr_next v h⟩

end Sys2Proof.Machine
end

section
/-! The state after reset (R38, R320) and the loading of an image into it (R322). -/

namespace Sys2Proof.Machine

theorem Seconds.zero_toRat : Seconds.zero.toRat = 0 := by
  simp [Seconds.zero, Seconds.toRat]

theorem Seconds.zero_lowest : Seconds.zero.lowest = true := by decide

theorem State.resetWith_inv {p : Launch} (h : p.fill.wf = true) : (State.resetWith p).Inv :=
  ⟨h, Nat.zero_le _, Seconds.zero_lowest, rfl⟩

/-- Settles O54: the invariant asks nothing of an open parameter but the canonical form of memory. -/
theorem resetMeetsTheInvariant : Obligations.ResetMeetsTheInvariant :=
  ⟨fun _ h => State.resetWith_inv h, State.resetWith_inv Memory.wf_nil⟩

/-- Loading an image that fits from address `k` on: its bytes lie there in order, wrapped, and all else is as before. -/
theorem loadFrom_read {k : Nat} {image : List Int} (h : k + image.length ≤ 256) (s : State) :
    ∃ t, loadFrom k image s = .next t ∧
      ∀ a, t.mem.read a = if k ≤ a ∧ a < k + image.length then u8 (image.getD (a - k) 0) else s.mem.read a := by
  induction image generalizing k s with
  | nil => exact ⟨s, rfl, fun a => (if_neg (by rw [List.length_nil]; omega)).symm⟩
  | cons v image ih =>
    rw [List.length_cons] at h
    obtain ⟨t, ht, hread⟩ := ih (k := k + 1) (by omega) (s.setMem (s.mem.write k (u8 v)))
    refine ⟨t, (memWrite_in (by omega) _ _ _).trans ht, fun a => ?_⟩
    rw [hread, State.setMem_mem, Memory.read_write, List.length_cons]
    by_cases hak : a = k
    · subst hak
      rw [if_neg (by omega), if_pos rfl, if_pos (by omega), Nat.sub_self, List.getD_cons_zero]
    · rw [if_neg hak]
      by_cases hin : k ≤ a ∧ a < k + (image.length + 1)
      · rw [if_pos hin, if_pos (by omega), show a - k = a - (k + 1) + 1 by omega, List.getD_cons_succ]
      · rw [if_neg hin, if_neg (by omega)]

/-- Loading an image of at most 256 bytes answers a next state with the image at 0 and up (R322). -/
theorem loadImage_read {image : List Int} (h : image.length ≤ 256) (s : State) :
    ∃ t, loadImage image s = .next t ∧
      ∀ a, t.mem.read a = if a < image.length then u8 (image.getD a 0) else s.mem.read a := by
  unfold loadImage
  simpa using loadFrom_read (k := 0) (by omega) s

/-- R0 to R6 after reset are the launch's. -/
theorem State.resetWith_reg (p : Launch) : ∀ r : RegNum, r ≠ SP →
    (State.resetWith p).reg r = [p.r0, p.r1, p.r2, p.r3, p.r4, p.r5, p.r6].getD r.val 0 := by
  intro r hr
  match r with
  | 0 | 1 | 2 | 3 | 4 | 5 | 6 => rfl
  | 7 => exact absurd rfl hr

/-- Settles O56: the fields of `State.resetWith`, and the load port on it. -/
theorem resetLeavesTheStatedValues : Obligations.ResetLeavesTheStatedValues := by
  intro p
  refine ⟨State.resetWith_reg p, rfl, rfl, rfl, rfl, rfl, Seconds.zero_toRat, rfl, rfl, fun image himage => ?_⟩
  obtain ⟨t, ht, hread⟩ := loadImage_read himage (State.resetWith p)
  exact ⟨t, ht, fun a _ => hread a⟩

end Sys2Proof.Machine
end

section
/-! Who writes memory (R51), what a read after a write gives (R52), and why canonical memories that read alike are equal. -/

namespace Sys2Proof.Machine

/-! ## The effect of each writer -/

theorem pushAddress_toNat (s : State) : (pushAddress s).toNat = (s.reg SP).toNat - 1 := by
  simp only [pushAddress, uint]
  omega

/-- An instruction leaves memory as it was, or writes one byte at the one address it stores to. -/
theorem Effect.mem {i : Instr} {s t : State} (h : Effect i s t) :
    t.mem = s.mem ∨ ∃ a v, a < Config.memSize ∧ storedTo i s = [a] ∧ t.mem = s.mem.write a v := by
  cases h with
  | push r hi =>
    subst hi
    have hlt : (s.reg SP).toNat - 1 < Config.memSize := (Nat.sub_le _ _).trans_lt (s.reg SP).isLt
    exact .inr ⟨_, _, hlt, congrArg (fun a => [a]) (pushAddress_toNat s), rfl⟩
  | store a b hi =>
    subst hi
    exact .inr ⟨_, _, (s.reg a).isLt, rfl, rfl⟩
  | iret hi ht =>
    obtain ⟨-, hmem, -⟩ := returnFromInterrupt_next ht
    exact .inl hmem
  | halt | compare | pop | writeReg | emit | jump | fallThrough => exact .inl rfl

theorem Effect.keepsMem {i : Instr} {s t : State} (h : Effect i s t) : KeepsMemBut (storedTo i s) s t := by
  intro a ha
  rcases h.mem with hkeep | ⟨b, v, -, hb, hwrite⟩
  · rw [hkeep]
  · rw [hb, List.mem_singleton] at ha
    rw [hwrite, Memory.read_write_ne _ _ ha]

/-- A poll changes no byte but the mailbox, and that one only when a key is ready (R275). -/
theorem poll_read_ne {s : State} {a : Nat} (h : (poll s).mem.read a ≠ s.mem.read a) :
    a = Config.mailbox ∧ s.nextInput.key ≠ none := by
  rw [poll_mem] at h
  cases hkey : s.nextInput.key with
  | none => rw [hkey] at h; exact absurd rfl h
  | some b =>
    rw [hkey] at h
    exact ⟨by_contra fun ha => h (Memory.read_write_ne _ _ ha), Option.some_ne_none b⟩

/-- A trap that goes on changes no byte but the nine below SP (R279). -/
theorem takeInterrupt_read_ne {l : Line} {s t : State} (h : takeInterrupt l s = .next t) {a : Nat}
    (ha : t.mem.read a ≠ s.mem.read a) : (s.reg SP).toNat - 9 ≤ a ∧ a < (s.reg SP).toNat := by
  rw [takeInterrupt_eq] at h
  split_ifs at h with hroom
  · cases h
    have hfits : (trapFrame s).length ≤ (s.trapBase.reg SP).toNat := by rwa [s.trapBase_sp, trapFrame_length]
    rw [State.jump_mem, State.pushAll_read hfits, s.trapBase_sp, trapFrame_length] at ha
    split_ifs at ha with hin
    · exact hin.symm
    · exact absurd rfl ha
  · exact absurd h (raise_ne_next _ _ _)

theorem storedTo_setIr (i : Instr) (s : State) (v : Byte) : storedTo i (s.setIr v) = storedTo i s := by
  cases i <;> rfl

/-- Settles O40: the poll changes only the mailbox; what changes after it, the trap or the instruction's effect changed. -/
theorem memoryChangesOnlyByItsWriters : Obligations.MemoryChangesOnlyByItsWriters := by
  intro s t a hrun h hne
  by_cases hpoll : (poll s).mem.read a = s.mem.read a
  · rw [← hpoll] at hne
    rcases step_next_effect h with ⟨hhalt, -⟩ | ⟨-, l, hdue, ht⟩ | ⟨-, hno, -, i, hi, heffect⟩
    · exact absurd (hrun.symm.trans hhalt) nofun
    · have hsp : (poll s).reg SP = s.reg SP := poll_keepsRegs s SP (by decide)
      exact .inr (.inl ⟨Option.isSome_of_eq_some hdue, hsp ▸ takeInterrupt_read_ne ht hne⟩)
    · have hstored := by_contra fun ha => hne (heffect.keepsMem a ha)
      exact .inr (.inr ⟨hno, i, hi, storedTo_setIr i _ _ ▸ hstored⟩)
  · exact .inl (poll_read_ne hpoll)

/-! ## Reading and writing -/

/-- Settles O49: inside memory both accesses go on with the list's read and write; outside, both raise. -/
theorem memoryReadsBackWhatWasWritten : Obligations.MemoryReadsBackWhatWasWritten := by
  refine fun addr v s => ⟨fun h0 h256 => ?_, fun hout => ?_⟩
  · lift addr to ℕ using h0
    have haddr : addr < 256 := by omega
    refine ⟨fun k => ?_, fun c k hc0 hc256 hne => ?_⟩
    · rw [memWrite_in haddr, memRead_in haddr, State.setMem_mem, Memory.read_write_self]
    · lift c to ℕ using hc0
      have hc : c < 256 := by omega
      rw [memWrite_in haddr, memRead_in hc, memRead_in hc, State.setMem_mem, Memory.read_write_ne _ _ (by omega)]
  · have hfalse : inMemory addr = false := Bool.eq_false_iff.2 fun hin => by
      have := (inMemory_iff addr).1 hin
      omega
    exact ⟨fun k => memRead_out hfalse s k, fun k => memWrite_out hfalse v s k⟩

/-! ## The canonical form determines the list -/

/-- Below its first entry a canonical memory is unlisted. -/
theorem Memory.read_below_head {low b : Nat} {w : Byte} {m : Memory} (hm : Memory.wfFrom low ((b, w) :: m) = true)
    {a : Nat} (h : a < b) : Memory.read ((b, w) :: m) a = Config.memFill := by
  obtain ⟨-, hb, hw, hrest⟩ := (Memory.wfFrom_cons _ _ _ _).1 hm
  exact Memory.read_below ((Memory.wfFrom_cons b _ _ _).2 ⟨le_rfl, hb, hw, hrest⟩) h

@[simp] theorem Memory.read_head (b : Nat) (w : Byte) (m : Memory) : Memory.read ((b, w) :: m) b = w := if_pos rfl

/-- A canonical memory with an entry reads otherwise than the empty one, at that entry. -/
theorem Memory.read_head_ne_fill {low b : Nat} {w : Byte} {m : Memory}
    (hm : Memory.wfFrom low ((b, w) :: m) = true) : Memory.read ((b, w) :: m) b ≠ Config.memFill := by
  obtain ⟨-, -, hw, -⟩ := (Memory.wfFrom_cons _ _ _ _).1 hm
  rwa [Memory.read_head]

/-- Where a canonical memory begins, one that reads alike at that address is listed too, so it begins there or below. -/
theorem Memory.head_le_of_read {low b c : Nat} {v w : Byte} {m n : Memory}
    (hm : Memory.wfFrom low ((b, v) :: m) = true) (hn : Memory.wfFrom low ((c, w) :: n) = true)
    (h : Memory.read ((b, v) :: m) c = Memory.read ((c, w) :: n) c) : b ≤ c :=
  Nat.le_of_not_lt fun hcb => Memory.read_head_ne_fill hn (h.symm.trans (Memory.read_below_head hm hcb))

theorem Memory.eq_of_wfFrom_of_read {low : Nat} {m n : Memory} (hm : Memory.wfFrom low m = true)
    (hn : Memory.wfFrom low n = true) (h : ∀ a, m.read a = n.read a) : m = n := by
  induction m generalizing low n with
  | nil =>
    cases n with
    | nil => rfl
    | cons d n => exact absurd (h d.1).symm (Memory.read_head_ne_fill hn)
  | cons c m ih =>
    cases n with
    | nil => exact absurd (h c.1) (Memory.read_head_ne_fill hm)
    | cons d n =>
      obtain ⟨b, v⟩ := c
      obtain ⟨b', w⟩ := d
      obtain rfl : b = b' :=
        le_antisymm (Memory.head_le_of_read hm hn (h b')) (Memory.head_le_of_read hn hm (h b).symm)
      obtain rfl : v = w := by simpa using h b
      obtain ⟨-, -, -, hm'⟩ := (Memory.wfFrom_cons _ _ _ _).1 hm
      obtain ⟨-, -, -, hn'⟩ := (Memory.wfFrom_cons _ _ _ _).1 hn
      have htails : ∀ a, Memory.read m a = Memory.read n a := fun a => by
        by_cases hab : a ≤ b
        · rw [Memory.read_below hm' (by omega), Memory.read_below hn' (by omega)]
        · simpa [Memory.read_cons, show b ≠ a by omega] using h a
      rw [ih hm' hn' htails]

/-- Settles O50: the first entries agree, and so do the lists after them; from 256 on both are unlisted. -/
theorem canonicalMemoriesThatReadAlikeAreEqual : Obligations.CanonicalMemoriesThatReadAlikeAreEqual := by
  refine fun m n hm hn h => Memory.eq_of_wfFrom_of_read hm hn fun a => ?_
  by_cases ha : a < 256
  · exact h a ha
  · have hout : Config.memSize ≤ a := Nat.le_of_not_lt ha
    rw [Memory.read_outside hm hout, Memory.read_outside hn hout]

end Sys2Proof.Machine
end

section
/-! The invariant: every step keeps memory canonical, PC at most 256, the accumulator reduced and the engine unfaulted. -/

namespace Sys2Proof.Machine

theorem encode_length (i : Instr) : (encode i).length = i.length := by
  cases i <;> rfl

/-- An accepted instruction is as long as its opcode's operand count says (R80). -/
theorem decodeFetched_length {opcode : Byte} {operands : List Byte} {i : Instr}
    (h : decodeFetched opcode operands = .ok i) : i.length = operandCount opcode + 1 := by
  obtain ⟨hencode, hcount, -⟩ := decodeFetched_ok h
  rw [← encode_length, hencode, List.length_cons, hcount]

theorem Effect.tacc {i : Instr} {s t : State} (h : Effect i s t) : t.tacc = s.tacc := by
  cases h with
  | iret hi ht =>
    obtain ⟨-, -, -, -, htacc, -⟩ := returnFromInterrupt_next ht
    exact htacc
  | halt | compare | push | pop | store | writeReg | emit | jump | fallThrough => rfl

theorem Effect.wf {i : Instr} {s t : State} (h : Effect i s t) (hs : s.mem.wf = true) : t.mem.wf = true := by
  rcases h.mem with hkeep | ⟨a, v, ha, -, hwrite⟩
  · exact hkeep ▸ hs
  · exact hwrite ▸ Memory.wf_write hs v ha

/-- An instruction that lies in memory leaves PC at most at 256, the address after the last byte. -/
theorem Effect.pc_le_memSize {i : Instr} {s t : State} (h : Effect i s t) (hin : s.pc + i.length ≤ 256) :
    t.pc ≤ 256 := by
  rcases h.pc with ⟨-, hadvance⟩ | ⟨b, -, hb⟩
  · exact hadvance ▸ hin
  · exact hb ▸ b.isLt.le

theorem Effect.notFaulted {i : Instr} {s t : State} (h : Effect i s t) (hs : s.run.notFaulted = true) :
    t.run.notFaulted = true := by
  rcases h.run with hkeep | ⟨hhalt, -⟩
  · exact hkeep ▸ hs
  · exact hhalt ▸ rfl

theorem Effect.inv {i : Instr} {s t : State} (h : Effect i s t) (hs : s.Inv) (hin : s.pc + i.length ≤ 256) : t.Inv := by
  obtain ⟨hwf, -, hlowest, hrun⟩ := hs
  exact ⟨h.wf hwf, h.pc_le_memSize hin, h.tacc ▸ hlowest, h.notFaulted hrun⟩

theorem poll_inv {s : State} (h : s.Inv) : (poll s).Inv := by
  obtain ⟨hwf, hpc, -, hrun⟩ := h
  obtain ⟨-, -, hpollPc, -, -, hpollRun, -⟩ := poll_frame s
  exact ⟨poll_wf hwf, hpollPc ▸ hpc, poll_lowest s, hpollRun ▸ hrun⟩

theorem takeInterrupt_inv {l : Line} {s t : State} (h : takeInterrupt l s = .next t) (hs : s.Inv) : t.Inv := by
  obtain ⟨hwf, -, hlowest, hrun⟩ := hs
  obtain ⟨-, -, -, htrapRun, htacc, -, -, -, -, hkeepsWf⟩ := takeInterrupt_next h
  exact ⟨hkeepsWf hwf, (takeInterrupt_pc_le h).trans (by omega), htacc ▸ hlowest, htrapRun ▸ hrun⟩

/-- Settles O53: standing still, the poll, a trap and an instruction's effect each keep the invariant; PC stays at most at
256 because all bytes of an executed instruction lie in memory. -/
theorem everyStepKeepsTheInvariant : Obligations.EveryStepKeepsTheInvariant := by
  intro s t hs h
  rcases step_next h with ⟨-, rfl⟩ | ⟨-, l, -, ht⟩ | ⟨-, -, i, hin, -, hi, ht⟩
  · exact hs
  · exact takeInterrupt_inv ht (poll_inv hs)
  · have hlength := decodeFetched_length hi
    exact (exec_effect ht).inv (poll_inv hs) (by rw [State.setIr_pc]; omega)

end Sys2Proof.Machine
end

section
/-! The decoded instruction is the one a step runs (R96), also when its opcode byte has just been stored (R66, R331). -/

namespace Sys2Proof.Machine

/-- Everything that bytes with an accepted instruction in front are: the operands are there and the fetched instruction
decodes. -/
theorem decode_cons_ok {opcode : Byte} {bytes : List Byte} {i : Instr} {rest : List Byte}
    (h : decode (opcode :: bytes) = .ok (i, rest)) :
    operandCount opcode ≠ 3 ∧ operandCount opcode ≤ bytes.length ∧
      decodeFetched opcode (bytes.take (operandCount opcode)) = .ok i := by
  rw [decode] at h
  split_ifs at h with hcount hshort
  refine ⟨hcount, Nat.le_of_not_lt hshort, ?_⟩
  cases hfetched : decodeFetched opcode (bytes.take (operandCount opcode)) with
  | ok j => rw [hfetched] at h; cases h; rfl
  | error e => rw [hfetched] at h; cases h

/-- The instruction at PC is executed with IR at its opcode (R96). -/
theorem fetchAndExecute_of_instructionAt {s : State} {i : Instr} (h : InstructionAt i s) :
    fetchAndExecute s = exec i (s.setIr (s.mem.read s.pc)) := by
  obtain ⟨rest, hdecode⟩ := h
  have hpc : s.pc < 256 := by
    by_contra hout
    rw [bytesFrom_nil _ (Nat.le_of_not_lt hout)] at hdecode
    cases hdecode
  rw [bytesFrom_cons _ hpc] at hdecode
  obtain ⟨hcount, hoperands, hfetched⟩ := decode_cons_ok hdecode
  rw [bytesFrom_length] at hoperands
  rw [bytesFrom_take _ (by omega)] at hfetched
  rw [fetchAndExecute_in hcount (by omega), decodeAndExecute, State.operandsAt, State.setIr_ir, hfetched]

/-- A running core with no trap due runs the instruction at PC of the polled state. -/
theorem step_of_instructionAt {s : State} {i : Instr} (hrun : s.run = .running) (hno : trapDue (poll s) = none)
    (h : InstructionAt i (poll s)) : step s = exec i ((poll s).setIr ((poll s).mem.read (poll s).pc)) := by
  rw [step_running hrun, trapOrExecute_noTrap hno, fetchAndExecute_of_instructionAt h]

theorem poll_mem_of_noKey {s : State} (h : s.nextInput.key = none) : (poll s).mem = s.mem := by
  rw [poll_mem, h]

/-- What ST leaves to the next cycle: the stored byte at its address, and the engine state as it was (R152). -/
theorem execSt_next {a b : RegNum} {s t : State} (h : exec (.st a b) s = .next t) :
    t.mem.read (s.reg a).toNat = s.reg b ∧ t.run = s.run := by
  cases (storeIndirect_eq a b s).symm.trans h
  exact ⟨Memory.read_write_self _ _ _, rfl⟩

/-- Settles O52: with no key ready the poll leaves memory, so the fetch reads the stored byte in front of the others. -/
theorem storedByteIsTheNextOpcode : Obligations.StoredByteIsTheNextOpcode := by
  intro a b s t i rest hrun hst hkey hno hpc hdecode
  obtain ⟨hread, hkeepsRun⟩ := execSt_next hst
  rw [← hpc] at hread
  have hpollMem := poll_mem_of_noKey hkey
  obtain ⟨-, -, hpollPc, -⟩ := poll_frame t
  have hat : InstructionAt i (poll t) := by
    refine ⟨rest, ?_⟩
    rw [hpollMem, hpollPc, bytesFrom_cons _ (hpc ▸ (s.reg a).isLt), hread, hdecode]
  rw [step_of_instructionAt (hkeepsRun.trans hrun) hno hat, hpollMem, hpollPc, hread]

end Sys2Proof.Machine
end

section
/-! Which fetched bytes the decoder accepts: those of a well-formed raw instruction, checked row by row (R82, R87, R99). -/

namespace Sys2Proof

/-- A register byte of 0..7 names its register (R83). -/
theorem registerOf_valid {x : Byte} (h : x.toNat < 8) : registerOf x = .ok ⟨x.toNat, h⟩ := dif_pos h

/-- A register byte is accepted exactly when it is 0..7 (R99). -/
theorem registerOf_isOk_iff (x : Byte) : (∃ a, registerOf x = .ok a) ↔ registerByteValid x = true := by
  rw [registerByteValid, decide_eq_true_iff]
  refine ⟨fun ⟨a, ha⟩ => ?_, fun hx => ⟨_, registerOf_valid hx⟩⟩
  rw [registerOf_ok ha, registerByte_toNat]
  exact a.isLt

/-- The opcodes outside the table are those without a format (R87). -/
theorem findRow_none_iff (opcode : Byte) : findRow opcode opcodeRows = none ↔ opcodeFormat opcode = none := by
  rw [← Option.not_isSome_iff_eq_none, findRow_isSome, Option.not_isSome_iff_eq_none]

/-- An opcode with a format has a row of that format (R82, R86). -/
theorem findRow_of_opcodeFormat {opcode : Byte} {f : Format} (h : opcodeFormat opcode = some f) :
    ∃ b, findRow opcode opcodeRows = some b ∧ b.format = f := by
  cases hrow : findRow opcode opcodeRows with
  | none => rw [(findRow_none_iff opcode).1 hrow] at h; cases h
  | some b => exact ⟨b, rfl, Option.some.inj ((findRow_agrees hrow).1.symm.trans h)⟩

/-- On as many operand bytes as its shape takes, a row builds an instruction exactly when its register bytes are valid. -/
theorem Build.apply_isOk_iff {opcode : Byte} {f : Build} (hf : opcodeFormat opcode = some f.format)
    {operands : List Byte} (hlength : operands.length = f.operandBytes) :
    (∃ i, f.apply operands = .ok i) ↔ (RawInstr.mk opcode operands).registersValid = true := by
  cases f with
  | z i =>
    obtain rfl := List.length_eq_zero_iff.1 hlength
    simp [Build.apply, RawInstr.registersValid, hf, Build.format]
  | r g =>
    obtain ⟨x, rfl⟩ := List.length_eq_one_iff.1 hlength
    simp only [RawInstr.registersValid, hf, Build.format, ← registerOf_isOk_iff]
    cases hx : registerOf x <;> simp [Build.apply, hx]
  | rr g =>
    obtain ⟨x, y, rfl⟩ := List.length_eq_two.1 hlength
    simp only [RawInstr.registersValid, hf, Build.format, Bool.and_eq_true, ← registerOf_isOk_iff]
    cases hx : registerOf x <;> cases hy : registerOf y <;> simp [Build.apply, hx, hy]
  | ri g =>
    obtain ⟨x, y, rfl⟩ := List.length_eq_two.1 hlength
    simp only [RawInstr.registersValid, hf, Build.format, ← registerOf_isOk_iff]
    cases hx : registerOf x <;> simp [Build.apply, hx]

theorem Build.format_operandBytes (f : Build) : f.format.operandBytes = f.operandBytes := by
  cases f <;> rfl

/-- With the operand count of bits 7:6, the fetched bytes are accepted exactly when they are well-formed. -/
theorem decodeFetched_isOk_iff {opcode : Byte} {operands : List Byte} (h : operands.length = operandCount opcode) :
    (∃ i, decodeFetched opcode operands = .ok i) ↔ (RawInstr.mk opcode operands).wellFormed = true := by
  cases hrow : findRow opcode opcodeRows with
  | none =>
    have hunknown := (findRow_none_iff opcode).1 hrow
    simp [decodeFetched_unknown hunknown, RawInstr.wellFormed, RawInstr.opcodeKnown, hunknown]
  | some f =>
    obtain ⟨hf, -⟩ := findRow_agrees hrow
    rw [findRow_operandCount hrow] at h
    have hcount : (RawInstr.mk opcode operands).operandCountRight = true := by
      simp [RawInstr.operandCountRight, hf, f.format_operandBytes, h]
    rw [RawInstr.wellFormed, hcount, RawInstr.opcodeKnown, hf, decodeFetched, hrow]
    simpa using Build.apply_isOk_iff hf h

end Sys2Proof
end

section
/-! Decoder and encoder are inverse to each other (R86, R91, R100), and the decoder accepts exactly the well-formed raw
instructions (R99). -/

namespace Sys2Proof.Machine

/-! ## Decoding an encoding -/

/-- Every instruction is what the row of its opcode builds from the operands the encoder writes (R82, R86). -/
theorem decode_encode (i : Instr) (rest : List Byte) : decode (encode i ++ rest) = .ok (i, rest) := by
  cases i with
  | hlt => exact decodesZ_of_row rfl rest
  | iret => exact decodesZ_of_row rfl rest
  | push r => exact (decodesR_of_row (f := .push) rfl).1 r rest
  | pop r => exact (decodesR_of_row (f := .pop) rfl).1 r rest
  | prn r => exact (decodesR_of_row (f := .prn) rfl).1 r rest
  | pra r => exact (decodesR_of_row (f := .pra) rfl).1 r rest
  | int r => exact (decodesR_of_row (f := .int) rfl).1 r rest
  | jmp r => exact (decodesR_of_row (f := .jmp) rfl).1 r rest
  | jeq r => exact (decodesR_of_row (f := .jeq) rfl).1 r rest
  | jne r => exact (decodesR_of_row (f := .jne) rfl).1 r rest
  | jgt r => exact (decodesR_of_row (f := .jgt) rfl).1 r rest
  | jlt r => exact (decodesR_of_row (f := .jlt) rfl).1 r rest
  | jle r => exact (decodesR_of_row (f := .jle) rfl).1 r rest
  | jge r => exact (decodesR_of_row (f := .jge) rfl).1 r rest
  | inc r => exact (decodesR_of_row (f := .inc) rfl).1 r rest
  | dec r => exact (decodesR_of_row (f := .dec) rfl).1 r rest
  | not r => exact (decodesR_of_row (f := .not) rfl).1 r rest
  | ldi a imm => exact (decodesRI_of_row (f := .ldi) rfl).1 a imm rest
  | ld a b => exact (decodesRR_of_row (f := .ld) rfl).1 a b rest
  | st a b => exact (decodesRR_of_row (f := .st) rfl).1 a b rest
  | add a b => exact (decodesRR_of_row (f := .add) rfl).1 a b rest
  | sub a b => exact (decodesRR_of_row (f := .sub) rfl).1 a b rest
  | mul a b => exact (decodesRR_of_row (f := .mul) rfl).1 a b rest
  | div a b => exact (decodesRR_of_row (f := .div) rfl).1 a b rest
  | mod a b => exact (decodesRR_of_row (f := .mod) rfl).1 a b rest
  | cmp a b => exact (decodesRR_of_row (f := .cmp) rfl).1 a b rest
  | and a b => exact (decodesRR_of_row (f := .and) rfl).1 a b rest
  | or a b => exact (decodesRR_of_row (f := .or) rfl).1 a b rest
  | xor a b => exact (decodesRR_of_row (f := .xor) rfl).1 a b rest
  | shl a b => exact (decodesRR_of_row (f := .shl) rfl).1 a b rest
  | shr a b => exact (decodesRR_of_row (f := .shr) rfl).1 a b rest

/-- Settles O2: each opcode's row is found, and its register bytes read back as the registers written. -/
theorem decodeOfEncodeIsTheInstruction : Obligations.DecodeOfEncodeIsTheInstruction := decode_encode

/-- Settles O1: the words of the table are the encodings of their instructions, so they decode to them. -/
theorem opcodeBytesDecodeToTheirInstructions : Obligations.OpcodeBytesDecodeToTheirInstructions :=
  ⟨decode_encode .hlt [], decode_encode .iret [], decode_encode (.push 2) [], decode_encode (.pop 7) [],
    decode_encode (.prn 1) [], decode_encode (.int 6) [], decode_encode (.jge 4) [], decode_encode (.not 3) [],
    decode_encode (.ldi 5 200) [], decode_encode (.st 2 1) [], decode_encode (.sub 3 6) [], decode_encode (.shr 0 7) []⟩

/-! ## Encoding what was decoded -/

/-- Bytes that hold an accepted instruction's operands decode to it and leave the rest. -/
theorem decode_append_of_ok {opcode : Byte} {operands : List Byte} {i : Instr}
    (h : decodeFetched opcode operands = .ok i) (rest : List Byte) :
    decode (opcode :: (operands ++ rest)) = .ok (i, rest) := by
  obtain ⟨-, hlength, hcount⟩ := decodeFetched_ok h
  rw [decode_append hcount hlength, h]

/-- Settles O3: the operands are the bytes bits 7:6 count, the rest is what follows them, and opcode and operands are the
encoding of the instruction they decode to. -/
theorem encodeOfDecodeIsTheBytes : Obligations.EncodeOfDecodeIsTheBytes := by
  intro bytes i rest h
  cases bytes with
  | nil => cases h
  | cons opcode bytes =>
    obtain ⟨-, -, hfetched⟩ := decode_cons_ok h
    have hsplit := List.take_append_drop (operandCount opcode) bytes
    have hagain := decode_append_of_ok hfetched (bytes.drop (operandCount opcode))
    rw [hsplit, h] at hagain
    cases hagain
    rw [(decodeFetched_ok hfetched).1, List.cons_append, hsplit]

/-! ## Which raw instructions are accepted -/

/-- Settles O4: accepting the whole list is accepting the fetched bytes, and those are checked row by row. -/
theorem decoderAcceptsExactlyTheWellFormed : Obligations.DecoderAcceptsExactlyTheWellFormed := by
  intro opcode operands hlength
  rw [← decodeFetched_isOk_iff hlength]
  refine exists_congr fun i => ⟨fun h => ?_, fun h => ?_⟩
  · obtain ⟨-, -, hfetched⟩ := decode_cons_ok h
    rwa [List.take_of_length_le hlength.le] at hfetched
  · simpa using decode_append_of_ok h []

end Sys2Proof.Machine
end

section
/-! The fetch as the decoder sees it: too few bytes, rejected bytes, illegal opcodes and register bytes fault by name
(R87, R88, R96, R98, R99). -/

namespace Sys2Proof.Machine

/-! ## Why decoding fails -/

/-- An opcode whose bits 7:6 are 11 is rejected before any operand byte is read (R88). -/
theorem decode_of_count_three {opcode : Byte} (h : operandCount opcode = 3) (bytes : List Byte) :
    decode (opcode :: bytes) = .error (.rejected .unsupported) := by
  rw [decode, if_pos h]

/-- Too few operand bytes are not looked at. -/
theorem decode_of_short {opcode : Byte} (hcount : operandCount opcode ≠ 3) {bytes : List Byte}
    (h : bytes.length < operandCount opcode) : decode (opcode :: bytes) = .error .truncated := by
  rw [decode, if_neg hcount, if_pos h]

/-- Everything an error of decoding bytes with an opcode in front can be. -/
theorem decode_cons_error {opcode : Byte} {bytes : List Byte} {e : DecodeError}
    (h : decode (opcode :: bytes) = .error e) :
    (operandCount opcode = 3 ∧ e = .rejected .unsupported) ∨
    (operandCount opcode ≠ 3 ∧ bytes.length < operandCount opcode ∧ e = .truncated) ∨
    (operandCount opcode ≠ 3 ∧ operandCount opcode ≤ bytes.length ∧
      ∃ why, decodeFetched opcode (bytes.take (operandCount opcode)) = .error why ∧ e = .rejected why) := by
  rw [decode] at h
  split_ifs at h with hcount hshort
  · cases h; exact .inl ⟨hcount, rfl⟩
  · cases h; exact .inr (.inl ⟨hcount, hshort, rfl⟩)
  · refine .inr (.inr ⟨hcount, Nat.le_of_not_lt hshort, ?_⟩)
    cases hfetched : decodeFetched opcode (bytes.take (operandCount opcode)) with
    | ok i => rw [hfetched] at h; cases h
    | error why => rw [hfetched] at h; cases h; exact ⟨why, rfl, rfl⟩

/-! ## The fetch of bytes that do not decode -/

/-- The fault a rejection of the decoder is (R87, R99, R263, R265). -/
def rejectFault (ir : Byte) (pc : Nat) : Reject → FaultInfo
  | .unsupported => .unsupportedInstruction ir pc
  | .invalidRegister r => .invalidRegister ir pc r

theorem decodeAndExecute_of_error {operands : List Byte} {s : State} {why : Reject}
    (h : decodeFetched s.ir operands = .error why) :
    decodeAndExecute operands s = raise (rejectFault s.ir s.pc why) s := by
  rw [decodeAndExecute, h]
  cases why <;> rfl

theorem fetchAndExecute_outside {s : State} (h : 256 ≤ s.pc) :
    fetchAndExecute s = raise (.addressingError s.pc) s := by
  have hout : inMemory (s.pc : Int) = false := Bool.eq_false_iff.2 fun hin => by
    have := (inMemory_iff _).1 hin
    omega
  exact memRead_out hout _ _

/-- An opcode whose bits 7:6 are 11 faults with no operand fetched (R88). -/
theorem fetchAndExecute_of_count_three {s : State} (hpc : s.pc < 256) (h : operandCount (s.mem.read s.pc) = 3) :
    fetchAndExecute s =
      raise (.unsupportedInstruction (s.mem.read s.pc) s.pc) (s.setIr (s.mem.read s.pc)) := by
  rw [fetchAndExecute, memRead_in hpc, if_pos h]

/-- Operand bytes past the top of memory fault at address 256 (R96). -/
theorem fetchAndExecute_past {s : State} (hpc : s.pc < 256) (hcount : operandCount (s.mem.read s.pc) ≠ 3)
    (h : 256 ≤ s.pc + operandCount (s.mem.read s.pc)) :
    fetchAndExecute s = raise (.addressingError 256) (s.setIr (s.mem.read s.pc)) := by
  rw [fetchAndExecute, memRead_in hpc, if_neg hcount, show (s.pc : Int) + 1 = ((s.pc + 1 : Nat) : Int) by push_cast; rfl,
    fetchOperands_past (by omega) (by omega)]

/-- Bytes at PC that are too few for an instruction: the first address outside memory faults. -/
theorem fetchAndExecute_of_truncated {s : State} (h : decode (bytesFrom s.mem s.pc) = .error .truncated) :
    FaultsWith (fetchAndExecute s) (.addressingError (max s.pc 256 : Nat)) := by
  by_cases hpc : s.pc < 256
  · rw [bytesFrom_cons _ hpc] at h
    rcases decode_cons_error h with ⟨-, he⟩ | ⟨hcount, hshort, -⟩ | ⟨-, -, why, -, he⟩
    · cases he
    · rw [bytesFrom_length] at hshort
      rw [Nat.max_eq_right hpc.le]
      exact ⟨_, fetchAndExecute_past hpc hcount (by omega)⟩
    · cases he
  · rw [Nat.max_eq_left (Nat.le_of_not_lt hpc)]
    exact ⟨_, fetchAndExecute_outside (Nat.le_of_not_lt hpc)⟩

/-- Bytes at PC that the decoder rejects: its reason is the fault, with nothing done but the fetch of the opcode. -/
theorem fetchAndExecute_of_rejected {s : State} {why : Reject}
    (h : decode (bytesFrom s.mem s.pc) = .error (.rejected why)) :
    fetchAndExecute s =
      raise (rejectFault (s.mem.read s.pc) s.pc why) (s.setIr (s.mem.read s.pc)) := by
  have hpc : s.pc < 256 := by
    by_contra hout
    rw [bytesFrom_nil _ (Nat.le_of_not_lt hout)] at h
    cases h
  rw [bytesFrom_cons _ hpc] at h
  rcases decode_cons_error h with ⟨hcount, he⟩ | ⟨-, -, he⟩ | ⟨hcount, hoperands, why', hfetched, he⟩
  · cases he
    exact fetchAndExecute_of_count_three hpc hcount
  · cases he
  · cases he
    rw [bytesFrom_length] at hoperands
    rw [bytesFrom_take _ (by omega)] at hfetched
    rw [fetchAndExecute_in hcount (by omega), decodeAndExecute_of_error hfetched]
    rfl

/-! ## The step at PC -/

section
variable {s : State} (hrun : s.run = .running) (hno : trapDue (poll s) = none)
include hrun hno

/-- With no trap due a running core fetches from the polled state. -/
theorem step_fetches : step s = fetchAndExecute (poll s) := by
  rw [step_running hrun, trapOrExecute_noTrap hno]

/-- A step at bytes that decode runs their instruction. -/
theorem step_of_decode {i : Instr} {rest : List Byte} (h : decode (bytesFrom (poll s).mem s.pc) = .ok (i, rest)) :
    step s = exec i ((poll s).setIr ((poll s).mem.read s.pc)) := by
  obtain ⟨-, -, hpc, -⟩ := poll_frame s
  rw [← hpc] at h ⊢
  exact step_of_instructionAt hrun hno ⟨rest, h⟩

/-- A step at too few bytes faults at the first address outside memory. -/
theorem step_of_truncated (h : decode (bytesFrom (poll s).mem s.pc) = .error .truncated) :
    FaultsWith (step s) (.addressingError (max s.pc 256 : Nat)) := by
  obtain ⟨-, -, hpc, -⟩ := poll_frame s
  rw [← hpc] at h ⊢
  rw [step_fetches hrun hno]
  exact fetchAndExecute_of_truncated h

/-- A step at bytes that the decoder rejects raises its reason. -/
theorem step_of_rejected {why : Reject} (h : decode (bytesFrom (poll s).mem s.pc) = .error (.rejected why)) :
    step s = raise (rejectFault ((poll s).mem.read s.pc) s.pc why) ((poll s).setIr ((poll s).mem.read s.pc)) := by
  obtain ⟨-, -, hpc, -⟩ := poll_frame s
  rw [← hpc] at h ⊢
  rw [step_fetches hrun hno, fetchAndExecute_of_rejected h]

end

theorem faultsWith_of_eq_raise {r : Result} {info : FaultInfo} {s : State} (h : r = raise info s) :
    FaultsWith r info := ⟨_, h⟩

/-- Settles O5: after the poll nothing comes before the fetch, and what the decoder reads at PC is executed. -/
theorem stepRunsTheDecodedInstruction : Obligations.StepRunsTheDecodedInstruction :=
  fun _ _ _ hrun hno h => step_of_decode hrun hno h

/-- Settles O6: the fetch stops where the decoder's list ends, and a rejection is the fault it names. -/
theorem rejectedBytesAtPcFaultByName : Obligations.RejectedBytesAtPcFaultByName := fun _ hrun hno =>
  ⟨step_of_truncated hrun hno, fun h => faultsWith_of_eq_raise (step_of_rejected hrun hno h),
    fun _ h => faultsWith_of_eq_raise (step_of_rejected hrun hno h)⟩

/-! ## Illegal opcode bytes -/

/-- The 225 bytes that are no opcode (R87). -/
theorem unknownOpcodes_length :
    ((List.range 256).filter fun n => (opcodeFormat (BitVec.ofNat 8 n)).isNone).length = 225 := by
  decide +kernel

/-- Bits 7:6 of a byte are 11 exactly from 192 on (R88). -/
theorem operandCount_eq_three_iff (opcode : Byte) : operandCount opcode = 3 ↔ 192 ≤ opcode.toNat := by
  have := opcode.isLt
  unfold operandCount
  omega

/-- An illegal opcode with its operand bytes behind it is rejected (R87). -/
theorem decode_bytesFrom_unknown {m : Memory} {a : Nat} (hm : opcodeFormat (m.read a) = none)
    (hcount : operandCount (m.read a) ≠ 3) (ha : a + operandCount (m.read a) < 256) :
    decode (bytesFrom m a) = .error (.rejected .unsupported) := by
  have hsplit := List.take_append_drop (operandCount (m.read a)) (bytesFrom m (a + 1))
  rw [bytesFrom_cons _ (by omega), ← hsplit, decode_append hcount, decodeFetched_unknown hm]
  rw [List.length_take, bytesFrom_length]
  omega

/-- Operand bytes that run past the top of memory are too few. -/
theorem decode_bytesFrom_past {m : Memory} {a : Nat} (h : a < 256) (hcount : operandCount (m.read a) ≠ 3)
    (ha : 256 ≤ a + operandCount (m.read a)) : decode (bytesFrom m a) = .error .truncated := by
  rw [bytesFrom_cons _ h]
  refine decode_of_short hcount ?_
  rw [bytesFrom_length]
  omega

/-- Settles O7: an illegal opcode is rejected at once with bits 7:6 = 11, else once its operand bytes are there. -/
theorem unknownOpcodeFaultsWithByteAndPc : Obligations.UnknownOpcodeFaultsWithByteAndPc := by
  refine ⟨unknownOpcodes_length, fun s hrun hno hpc hunknown => ?_⟩
  have hthree := operandCount_eq_three_iff ((poll s).mem.read s.pc)
  refine ⟨fun hhigh => ?_, fun hlow hfits => ?_, fun hlow hpast => ?_⟩
  · refine faultsWith_of_eq_raise (step_of_rejected hrun hno (why := .unsupported) ?_)
    rw [bytesFrom_cons _ hpc]
    exact decode_of_count_three (hthree.2 hhigh) _
  · exact faultsWith_of_eq_raise
      (step_of_rejected hrun hno (decode_bytesFrom_unknown hunknown (by omega) hfits))
  · have hfault := step_of_truncated hrun hno (decode_bytesFrom_past hpc (by omega) hpast)
    rwa [Nat.max_eq_right hpc.le] at hfault

/-! ## Register operand bytes -/

theorem registerByte_of_lt {x : Byte} (h : x.toNat < 8) : registerByte ⟨x.toNat, h⟩ = x :=
  (registerOf_ok (registerOf_valid h)).symm

/-- LDI is the one instruction of format RI (R82). -/
theorem findRow_ri {opcode : Byte} {f : RegNum → Byte → Instr} (h : findRow opcode opcodeRows = some (.ri f)) :
    f = .ldi := by
  have hrow : opcode = 0x82 ∧ f = .ldi := by simpa [opcodeRows] using findRow_mem h
  exact hrow.2

/-- The bytes from an address on, an opcode and one operand byte in front. -/
theorem bytesFrom_cons_cons (m : Memory) {a : Nat} (h : a + 1 < 256) :
    bytesFrom m a = m.read a :: m.read (a + 1) :: bytesFrom m (a + 2) := by
  rw [bytesFrom_cons _ (by omega), bytesFrom_cons _ h]

/-- The same with two operand bytes. -/
theorem bytesFrom_cons_cons_cons (m : Memory) {a : Nat} (h : a + 2 < 256) :
    bytesFrom m a = m.read a :: m.read (a + 1) :: m.read (a + 2) :: bytesFrom m (a + 3) := by
  rw [bytesFrom_cons_cons _ (by omega), bytesFrom_cons _ h]

/-- A first operand byte above 7 is rejected in every format that has operands (R99). -/
theorem decode_bytesFrom_first_invalid {m : Memory} {a : Nat} {f : Format} (hf : opcodeFormat (m.read a) = some f)
    (hz : f ≠ .z) (ha : a + f.operandBytes < 256) (hx : 8 ≤ (m.read (a + 1)).toNat) :
    decode (bytesFrom m a) = .error (.rejected (.invalidRegister (m.read (a + 1)))) := by
  obtain ⟨row, hrow, rfl⟩ := findRow_of_opcodeFormat hf
  cases row with
  | z i => exact absurd rfl hz
  | r g => rw [bytesFrom_cons_cons m ha]; exact (decodesR_of_row hrow).2 _ _ hx
  | rr g => rw [bytesFrom_cons_cons_cons m ha]; exact (decodesRR_of_row hrow).2.1 _ _ _ hx
  | ri g => rw [bytesFrom_cons_cons_cons m ha]; exact (decodesRI_of_row hrow).2 _ _ _ hx

/-- In format RR a second operand byte above 7 is rejected after a valid first one (R99). -/
theorem decode_bytesFrom_second_invalid {m : Memory} {a : Nat} (hf : opcodeFormat (m.read a) = some .rr)
    (ha : a + 2 < 256) (hx : (m.read (a + 1)).toNat < 8) (hy : 8 ≤ (m.read (a + 2)).toNat) :
    decode (bytesFrom m a) = .error (.rejected (.invalidRegister (m.read (a + 2)))) := by
  obtain ⟨row, hrow, hformat⟩ := findRow_of_opcodeFormat hf
  cases row with
  | rr g =>
    rw [bytesFrom_cons_cons_cons m ha, ← registerByte_of_lt hx]
    exact (decodesRR_of_row hrow).2.2 _ _ _ hy
  | z | r | ri => cases hformat

/-- In format RI a valid register byte is enough: the instruction is LDI with any immediate (R99, R150). -/
theorem decode_bytesFrom_ri {m : Memory} {a : Nat} (hf : opcodeFormat (m.read a) = some .ri) (ha : a + 2 < 256)
    (hx : (m.read (a + 1)).toNat < 8) :
    decode (bytesFrom m a) = .ok (.ldi ⟨_, hx⟩ (m.read (a + 2)), bytesFrom m (a + 3)) := by
  obtain ⟨row, hrow, hformat⟩ := findRow_of_opcodeFormat hf
  cases row with
  | ri g =>
    obtain rfl := findRow_ri hrow
    have hdecode := (decodesRI_of_row hrow).1 ⟨_, hx⟩ (m.read (a + 2)) (bytesFrom m (a + 3))
    rwa [registerByte_of_lt hx, ← bytesFrom_cons_cons_cons m ha] at hdecode
  | z | r | rr => cases hformat

/-- Settles O8: the decoder checks the register bytes of the row's format in operand order, before anything executes. -/
theorem invalidRegisterByteFaultsBeforeExecution : Obligations.InvalidRegisterByteFaultsBeforeExecution := by
  intro s f hrun hno hf hin
  refine ⟨fun hz hx => ?_, ?_, ?_⟩
  · exact step_of_rejected hrun hno (decode_bytesFrom_first_invalid hf hz hin hx)
  · rintro rfl hx hy
    exact step_of_rejected hrun hno (decode_bytesFrom_second_invalid hf hin hx hy)
  · rintro rfl hx
    exact ⟨⟨_, hx⟩, rfl, step_of_decode hrun hno (decode_bytesFrom_ri hf hin hx)⟩

end Sys2Proof.Machine
end

section
/-! Where an instruction leaves PC (R97), and where its execution faults and where it completes (R98 step 7). -/

namespace Sys2Proof.Machine

/-! ## The advance -/

/-- An instruction's encoding is an opcode and as many operand bytes as bits 7:6 of the opcode count (R80). -/
theorem encode_eq_cons (i : Instr) : ∃ opcode operands, encode i = opcode :: operands ∧
    i.length = operandCount opcode + 1 ∧ operands.length = operandCount opcode := by
  have hdecode := decode_encode i []
  cases hencode : encode i with
  | nil => rw [hencode] at hdecode; cases hdecode
  | cons opcode operands =>
    rw [hencode, List.cons_append] at hdecode
    obtain ⟨-, -, hfetched⟩ := decode_cons_ok hdecode
    have hlength : i.length = operandCount opcode + 1 := decodeFetched_length hfetched
    refine ⟨opcode, operands, rfl, hlength, ?_⟩
    rw [← encode_length, hencode, List.length_cons] at hlength
    exact Nat.succ.inj hlength

/-- An instruction that answers a next state leaves PC at its transfer target, or its length further (R97). -/
theorem exec_next_pc {i : Instr} {s t : State} (h : exec i s = .next t) :
    t.pc = (transferTarget i s).getD (s.pc + i.length) := by
  rcases (exec_effect h).pc with ⟨hnone, hpc⟩ | ⟨b, htarget, hpc⟩
  · rw [hpc, hnone, Option.getD_none]
  · rw [hpc, htarget, Option.getD_some]

/-- Settles O42: every effect of an instruction sets PC to the transfer target or advances it by the length, and the
length is the decoder's operand count plus one. -/
theorem pcAdvancesByTheLengthOrTransfers : Obligations.PcAdvancesByTheLengthOrTransfers :=
  ⟨fun _ _ _ h => exec_next_pc h, encode_eq_cons⟩

/-! ## Completing -/

theorem jumpWhen_completes (taken : Bool) (r : RegNum) (s : State) : ∃ t, jumpWhen taken r s = .next t := by
  cases taken with
  | true => exact ⟨_, rfl⟩
  | false => exact ⟨_, rfl⟩

theorem divisionAlu_completes {f : Byte → Byte → Byte} {a b : RegNum} {s : State} (h : s.reg b ≠ 0) :
    ∃ t, divisionAlu f a b s = .next t :=
  ⟨_, divisionAlu_next.2 ⟨h, rfl⟩⟩

theorem not_of_ite_some_none_eq_none {p : Prop} [Decidable p] {info : FaultInfo}
    (h : (if p then some info else none) = none) : ¬ p := fun hp => nomatch ite_eq_right_iff.1 h hp

/-- Without a fault of its own an instruction completes. -/
theorem exec_completes {i : Instr} {s : State} (h : instructionFault i s = none) : ∃ t, exec i s = .next t := by
  cases i with
  | iret =>
    have hsp := not_of_ite_some_none_eq_none h
    exact ⟨_, (returnFromInterrupt_eq s).trans (if_pos (by omega))⟩
  | push r => exact ⟨_, execPush_next.2 ⟨Nat.pos_of_ne_zero (not_of_ite_some_none_eq_none h), rfl⟩⟩
  | pop r =>
    have hsp := not_of_ite_some_none_eq_none h
    have hlt := (s.reg SP).isLt
    exact ⟨_, execPop_next.2 ⟨by omega, rfl⟩⟩
  | jmp r => exact jumpWhen_completes true r s
  | jeq r | jne r | jgt r | jlt r | jle r | jge r => exact jumpWhen_completes _ r s
  | div a b | mod a b => exact divisionAlu_completes (not_of_ite_some_none_eq_none h)
  | ld a b => exact ⟨_, loadIndirect_eq a b s⟩
  | st a b => exact ⟨_, storeIndirect_eq a b s⟩
  | hlt | prn | pra | int | inc | dec | not | ldi => exact ⟨_, rfl⟩
  | add | sub | mul | cmp | and | or | xor | shl | shr => exact ⟨_, rfl⟩

/-! ## Faulting -/

theorem divisionAlu_faults {f : Byte → Byte → Byte} {a b : RegNum} {s : State} (h : s.reg b = 0) :
    FaultsWith (divisionAlu f a b s) (.divideByZero s.ir a b) :=
  faultsWith_of_eq_raise (if_pos h)

theorem execPush_faults {r : RegNum} {s : State} (h : (s.reg SP).toNat = 0) :
    FaultsWith (execPush r s) (.addressingError (-1)) :=
  faultsWith_of_eq_raise ((pushByte_eq _ s _).trans (if_neg (by omega)))

theorem execPop_faults {r : RegNum} {s : State} (h : (s.reg SP).toNat = 255) :
    FaultsWith (execPop r s) (.addressingError 256) :=
  faultsWith_of_eq_raise ((popByte_eq s _).trans (if_neg (by omega)))

theorem returnFromInterrupt_faults {s : State} (h : 247 ≤ (s.reg SP).toNat) :
    FaultsWith (returnFromInterrupt s) (.addressingError 256) := by
  rw [returnFromInterrupt_eq, if_neg (by omega)]
  split_ifs
  · exact ⟨_, rfl⟩
  · exact ⟨_, rfl⟩

/-- A fault of its own stops the instruction. -/
theorem exec_faults {i : Instr} {s : State} {info : FaultInfo} (h : instructionFault i s = some info) :
    FaultsWith (exec i s) info := by
  cases i with
  | iret =>
    obtain ⟨hsp, rfl⟩ := Option.ite_some_none_eq_some.1 h
    rw [exec_iret]
    exact returnFromInterrupt_faults hsp
  | push r => obtain ⟨hsp, rfl⟩ := Option.ite_some_none_eq_some.1 h; exact execPush_faults hsp
  | pop r => obtain ⟨hsp, rfl⟩ := Option.ite_some_none_eq_some.1 h; exact execPop_faults hsp
  | div a b | mod a b => obtain ⟨hb, rfl⟩ := Option.ite_some_none_eq_some.1 h; exact divisionAlu_faults hb
  | hlt | prn | pra | int | inc | dec | not | ldi | ld | st => cases h
  | jmp | jeq | jne | jgt | jlt | jle | jge => cases h
  | add | sub | mul | cmp | and | or | xor | shl | shr => cases h

theorem FaultsWith.unique {r : Result} {info info' : FaultInfo} (h : FaultsWith r info) (h' : FaultsWith r info') :
    info = info' := by
  obtain ⟨t, rfl⟩ := h
  obtain ⟨t', ht'⟩ := h'
  cases ht'
  rfl

theorem not_faultsWith_next (s : State) (info : FaultInfo) : ¬ FaultsWith (.next s) info := fun ⟨_, h⟩ => nomatch h

/-- Settles O46: without a fault of the table the instruction completes, and with one it stops with that one. -/
theorem instructionsFaultExactlyOnTheirOwnFaults : Obligations.InstructionsFaultExactlyOnTheirOwnFaults := by
  refine fun i s => ⟨fun info => ⟨fun h => ?_, exec_faults⟩, exec_completes⟩
  cases hfault : instructionFault i s with
  | none =>
    obtain ⟨t, ht⟩ := exec_completes hfault
    exact absurd (ht ▸ h) (not_faultsWith_next t info)
  | some info' => rw [(exec_faults hfault).unique h]

end Sys2Proof.Machine
end

section
/-! What a poll makes of the input it samples (R95, R271 to R275). -/

namespace Sys2Proof.Machine

/-! ## The timer part -/

theorem pollTimer_tacc_toRat (e : Seconds) (s : State) :
    (pollTimer e s).tacc.toRat =
      if 1 ≤ s.tacc.toRat + e.toRat then s.tacc.toRat + e.toRat - 1 else s.tacc.toRat + e.toRat := by
  rw [← Seconds.add_toRat]
  by_cases h : (s.tacc.add e).atLeastOne = true
  · rw [if_pos ((Seconds.atLeastOne_iff _).1 h), pollTimer_fires h, State.setTacc_tacc, Seconds.minusOne_toRat h]
  · rw [if_neg (mt (Seconds.atLeastOne_iff _).2 h), pollTimer_waits h, State.setTacc_tacc]

/-- The timer part sets bit 0 of IS when the accumulated time reaches one second, and else leaves it. -/
theorem pollTimer_is_bit_zero (e : Seconds) (s : State) :
    ((pollTimer e s).reg IS).getLsbD 0 =
      if 1 ≤ s.tacc.toRat + e.toRat then true else (s.reg IS).getLsbD 0 := by
  rw [← Seconds.add_toRat]
  by_cases h : (s.tacc.add e).atLeastOne = true
  · rw [if_pos ((Seconds.atLeastOne_iff _).1 h), pollTimer_fires h]
    simp [timerBit_bit]
  · rw [if_neg (mt (Seconds.atLeastOne_iff _).2 h), pollTimer_waits h, State.setTacc_reg]

theorem poll_tacc_toRat (s : State) :
    (poll s).tacc.toRat =
      if 1 ≤ s.tacc.toRat + s.nextInput.elapsed.toRat then s.tacc.toRat + s.nextInput.elapsed.toRat - 1
      else s.tacc.toRat + s.nextInput.elapsed.toRat := by
  rw [poll_tacc, pollTimer_tacc_toRat, State.sampled_tacc]

/-- The key part does not touch line 0. -/
theorem poll_is_bit_zero (s : State) :
    ((poll s).reg IS).getLsbD 0 =
      if 1 ≤ s.tacc.toRat + s.nextInput.elapsed.toRat then true else (s.reg IS).getLsbD 0 := by
  rw [poll, pollKey_is_bit _ _ Nat.zero_ne_one, pollTimer_is_bit_zero, State.sampled_tacc, State.sampled_reg]

/-! ## The key part -/

theorem pollKey_is_bit_one (key : Option Byte) (s : State) :
    ((pollKey key s).reg IS).getLsbD 1 = (key.isSome || (s.reg IS).getLsbD 1) := by
  cases key with
  | none => rfl
  | some b => simp [pollKey, keyBit_bit]

/-- The timer part does not touch line 1. -/
theorem poll_is_bit_one (s : State) :
    ((poll s).reg IS).getLsbD 1 = (s.nextInput.key.isSome || (s.reg IS).getLsbD 1) := by
  rw [poll, pollKey_is_bit_one, pollTimer_is_bit _ _ Nat.one_ne_zero, State.sampled_reg]

theorem poll_read_mailbox {s : State} {b : Byte} (h : s.nextInput.key = some b) :
    (poll s).mem.read Config.mailbox = b := by
  rw [poll_mem, h]
  exact Memory.read_write_self _ _ _

/-! ## The whole poll -/

theorem poll_keepsMem (s : State) : KeepsMemBut [Config.mailbox] s (poll s) := fun _ ha =>
  by_contra fun hne => ha (List.mem_singleton.2 (poll_read_ne hne).1)

/-- But for IS, the mailbox, the accumulator and the input used up, a poll leaves the state as it was. -/
theorem poll_fullFrame (s : State) : Frame [IS] [Config.mailbox] (s.sampled.setTacc (poll s).tacc) (poll s) := by
  obtain ⟨-, hfl, -, hir, hie, hrun, hout, hinputs, hpolled⟩ := poll_frame s
  exact ⟨poll_keepsRegs s, poll_keepsMem s, hfl, hie, hir, hrun, rfl, hout, hinputs, hpolled⟩

/-- Settles O58: the timer part decides the accumulator and bit 0 of IS, the key part the mailbox and bit 1. -/
theorem pollAppliesTheSampledInput : Obligations.PollAppliesTheSampledInput := by
  intro s
  obtain ⟨-, -, hpc, -⟩ := poll_frame s
  refine ⟨fun _ _ h => State.nextInput_cons h, fun h => State.nextInput_nil h, fun hfires => ?_, fun hwaits => ?_,
    fun hkey => ?_, fun b hkey => ⟨poll_read_mailbox hkey, ?_⟩, fun _ hj => poll_is_bit s hj, hpc, poll_fullFrame s⟩
  · rw [poll_tacc_toRat, poll_is_bit_zero, if_pos hfires, if_pos hfires]
    exact ⟨rfl, rfl⟩
  · rw [poll_tacc_toRat, poll_is_bit_zero, if_neg hwaits.not_ge, if_neg hwaits.not_ge]
    exact ⟨rfl, rfl⟩
  · rw [poll_is_bit_one, hkey]
    exact ⟨poll_mem_of_noKey hkey, rfl⟩
  · rw [poll_is_bit_one, hkey]
    rfl

end Sys2Proof.Machine
end

section
/-! The ALU's instructions: results, PC and frame (R110 to R124), the division law (R125), and one register as both
operands (R126). -/

namespace Sys2Proof.Machine

/-! ## What an ALU instruction leaves -/

/-- A register write and the advance change that register and PC alone. -/
theorem State.frame_setReg_advance (s : State) (r : RegNum) (v : Byte) (n : Nat) :
    Frame [r] [] s ((s.setReg r v).advance n) :=
  ⟨fun _ hq => State.reg_setReg_ne s v (List.ne_of_not_mem_cons hq), fun _ _ => rfl,
    rfl, rfl, rfl, rfl, rfl, rfl, rfl, rfl⟩

/-- A flags write and the advance change FL and PC alone. -/
theorem State.frame_setFl_advance (s : State) (v : Byte) (n : Nat) :
    Frame [] [] (s.setFl v) ((s.setFl v).advance n) :=
  ⟨fun _ _ => rfl, fun _ _ => rfl, rfl, rfl, rfl, rfl, rfl, rfl, rfl, rfl⟩

theorem binaryAlu_next_reg {g : Byte → Byte → Byte} {a b : RegNum} {s t : State} (h : binaryAlu g a b s = .next t) :
    t.reg a = g (s.reg a) (s.reg b) := by
  cases h
  exact State.reg_setReg_self _ _ _

theorem divisionAlu_next_reg {g : Byte → Byte → Byte} {a b : RegNum} {s t : State}
    (h : divisionAlu g a b s = .next t) : t.reg a = g (s.reg a) (s.reg b) :=
  binaryAlu_next_reg (divisionAlu_next.1 h).2

/-! ## The rules of the instructions, from their row, their meaning and their operation -/

section
variable {opcode : Byte} {f : RegNum → RegNum → Instr} {g : Byte → Byte → Byte} {result : Nat → Nat → Nat}
  (hrow : findRow opcode opcodeRows = some (.rr f)) (hg : ∀ x y, (g x y).toNat = result x.toNat y.toNat)

include hg in
/-- All that a two-register ALU instruction does, with the result as a natural number. -/
theorem binaryAlu_computes (a b : RegNum) (s : State) :
    ∃ t, binaryAlu g a b s = .next t ∧ (t.reg a).toNat = result (s.reg a).toNat (s.reg b).toNat ∧
      t.pc = s.pc + 3 ∧ Frame [a] [] s t :=
  ⟨_, rfl, by rw [binaryAlu_next_reg rfl, hg], rfl, s.frame_setReg_advance a _ 3⟩

include hrow hg

theorem binaryAluRule_of_row (hexec : ∀ a b s, exec (f a b) s = binaryAlu g a b s) : BinaryAluRule opcode f result :=
  ⟨decodesRR_of_row hrow, fun a b s => hexec a b s ▸ binaryAlu_computes hg a b s⟩

theorem divisionRule_of_row (hexec : ∀ a b s, exec (f a b) s = divisionAlu g a b s) : DivisionRule opcode f result := by
  refine ⟨decodesRR_of_row hrow, fun a b s hb => ?_, fun a b s hb => ?_⟩
  · rw [hexec, divisionAlu, if_neg hb]
    exact binaryAlu_computes hg a b s
  · rw [hexec, divisionAlu, if_pos hb]
    exact ⟨_, rfl, fun _ => rfl, rfl⟩

end

theorem unaryAluRule_of_row {opcode : Byte} {f : RegNum → Instr} {g : Byte → Byte} {result : Nat → Nat}
    (hrow : findRow opcode opcodeRows = some (.r f)) (hg : ∀ x, (g x).toNat = result x.toNat)
    (hexec : ∀ r s, exec (f r) s = unaryAlu g r s) : UnaryAluRule opcode f result :=
  ⟨decodesR_of_row hrow, fun r s => ⟨_, hexec r s,
    by rw [State.advance_reg, State.reg_setReg_self, hg], rfl, s.frame_setReg_advance r _ 2⟩⟩

/-- Settles O20: the three are two-register ALU instructions whose operations wrap modulo 256. -/
theorem addSubMulWrapTo8Bits : Obligations.AddSubMulWrapTo8Bits :=
  ⟨binaryAluRule_of_row rfl aluAdd_toNat fun _ _ _ => rfl,
    binaryAluRule_of_row rfl aluSub_toNat fun _ _ _ => rfl,
    binaryAluRule_of_row rfl aluMul_toNat fun _ _ _ => rfl⟩

/-- Settles O21: the three are one-register ALU instructions with these operations. -/
theorem incDecNotWriteTheirRegister : Obligations.IncDecNotWriteTheirRegister :=
  ⟨unaryAluRule_of_row rfl aluInc_toNat fun _ _ => rfl,
    unaryAluRule_of_row rfl aluDec_toNat fun _ _ => rfl,
    unaryAluRule_of_row rfl aluNot_toNat fun _ _ => rfl⟩

/-- Settles O22: both test the divisor before they write anything. -/
theorem divModDivideOrFault : Obligations.DivModDivideOrFault :=
  ⟨divisionRule_of_row rfl aluDiv_toNat fun _ _ _ => rfl,
    divisionRule_of_row rfl aluMod_toNat fun _ _ _ => rfl⟩

/-- Settles O23: the two results are the quotient and the remainder of the same two values. -/
theorem quotientAndRemainderRecombine : Obligations.QuotientAndRemainderRecombine := by
  intro a b s t u hb hdiv hmod
  have hquotient : (t.reg a).toNat = (s.reg a).toNat / (s.reg b).toNat := by
    rw [divisionAlu_next_reg hdiv, aluDiv_toNat]
  have hremainder : (u.reg a).toNat = (s.reg a).toNat % (s.reg b).toNat := by
    rw [divisionAlu_next_reg hmod, aluMod_toNat]
  rw [hquotient, hremainder]
  exact ⟨(Nat.div_add_mod' _ _).symm, Nat.mod_lt _ ((byte_ne_zero_iff _).1 hb)⟩

/-- Settles O24: the operations are those of the bytes, and of their values as numbers. -/
theorem andOrXorAreBitwise : Obligations.AndOrXorAreBitwise :=
  ⟨binaryAluRule_of_row rfl BitVec.toNat_and fun _ _ _ => rfl,
    binaryAluRule_of_row rfl BitVec.toNat_or fun _ _ _ => rfl,
    binaryAluRule_of_row rfl BitVec.toNat_xor fun _ _ _ => rfl⟩

/-! ## Shifts -/

theorem aluShl_eq_shiftLeft (a b : Byte) : aluShl a b = a <<< b.toNat :=
  BitVec.eq_of_toNat_eq <| by rw [aluShl_toNat, BitVec.toNat_shiftLeft, Nat.shiftLeft_eq]

theorem aluShr_eq_ushiftRight (a b : Byte) : aluShr a b = a >>> b.toNat :=
  BitVec.eq_of_toNat_eq <| by rw [aluShr_toNat, BitVec.toNat_ushiftRight, Nat.shiftRight_eq_div_pow]

theorem execShl_next_reg {a b : RegNum} {s t : State} (h : execShl a b s = .next t) :
    t.reg a = s.reg a <<< (s.reg b).toNat := by
  rw [binaryAlu_next_reg h, aluShl_eq_shiftLeft]

theorem execShr_next_reg {a b : RegNum} {s t : State} (h : execShr a b s = .next t) :
    t.reg a = s.reg a >>> (s.reg b).toNat := by
  rw [binaryAlu_next_reg h, aluShr_eq_ushiftRight]

/-- Settles O25: the shifts are those of the bytes, and a shift by the width or more leaves no bit. -/
theorem shiftsByAnyAmount : Obligations.ShiftsByAnyAmount := by
  refine ⟨binaryAluRule_of_row rfl aluShl_toNat fun _ _ _ => rfl,
    binaryAluRule_of_row rfl aluShr_toNat fun _ _ _ => rfl, fun a b s t hamount h => ?_⟩
  rcases h with hshl | hshr
  · exact (execShl_next_reg hshl).trans (BitVec.shiftLeft_eq_zero hamount)
  · exact (execShr_next_reg hshr).trans (BitVec.ushiftRight_eq_zero hamount)

/-! ## The comparison -/

theorem compareFlags_of_lt {a b : Byte} (h : a.toNat < b.toNat) : compareFlags a b = 4 := by
  rw [compareFlags_eq, if_pos h]

theorem compareFlags_of_gt {a b : Byte} (h : b.toNat < a.toNat) : compareFlags a b = 2 := by
  rw [compareFlags_eq, if_neg h.not_gt, if_pos h]

theorem compareFlags_of_eq {a b : Byte} (h : a.toNat = b.toNat) : compareFlags a b = 1 := by
  rw [compareFlags_eq, if_neg h.not_lt, if_neg h.not_gt]

/-- Settles O26: CMP's next state is known, and its FL follows the three cases of the comparison. -/
theorem cmpWritesExactlyOneFlag : Obligations.CmpWritesExactlyOneFlag :=
  ⟨decodesRR_of_row rfl, fun _ _ s => ⟨_, rfl, rfl, s.frame_setFl_advance _ 3,
    compareFlags_of_lt, compareFlags_of_gt, compareFlags_of_eq⟩⟩

/-! ## One register as both operands -/

theorem aluSub_self (a : Byte) : aluSub a a = 0 :=
  BitVec.eq_of_toNat_eq <| by rw [aluSub_toNat, Nat.add_sub_cancel_left]; rfl

theorem aluDiv_self {a : Byte} (h : a ≠ 0) : aluDiv a a = 1 :=
  BitVec.eq_of_toNat_eq <| by rw [aluDiv_toNat, Nat.div_self ((byte_ne_zero_iff a).1 h)]; rfl

theorem aluMod_self (a : Byte) : aluMod a a = 0 :=
  BitVec.eq_of_toNat_eq <| by rw [aluMod_toNat, Nat.mod_self]; rfl

/-- A division with a divisor other than 0 answers a next state with its result in the first register. -/
theorem divisionAlu_writes {g : Byte → Byte → Byte} {a b : RegNum} {s : State} (h : s.reg b ≠ 0) :
    ∃ t, divisionAlu g a b s = .next t ∧ t.reg a = g (s.reg a) (s.reg b) := by
  obtain ⟨t, ht⟩ := divisionAlu_completes (f := g) (a := a) h
  exact ⟨t, ht, divisionAlu_next_reg ht⟩

/-- Settles O27: every instruction reads both operands before it writes, so its result is that of one value with itself. -/
theorem sameRegisterAsBothOperands : Obligations.SameRegisterAsBothOperands := by
  refine fun a s => ⟨fun t hadd => ?_, fun t hsub => ?_, fun t hmul => ?_, fun hne => ?_, fun hne => ?_,
    fun hzero => ⟨divisionAlu_faults hzero, divisionAlu_faults hzero⟩, fun t hbitwise => ?_, fun t hxor => ?_,
    fun t => execShl_next_reg, fun t => execShr_next_reg, fun t hcmp => ?_⟩
  · rw [binaryAlu_next_reg hadd, aluAdd_toNat, Nat.two_mul]
  · rw [binaryAlu_next_reg hsub, aluSub_self]
  · rw [binaryAlu_next_reg hmul, aluMul_toNat, Nat.pow_two]
  · rw [← aluDiv_self hne]
    exact divisionAlu_writes hne
  · rw [← aluMod_self (s.reg a)]
    exact divisionAlu_writes hne
  · rcases hbitwise with hand | hor
    · rw [binaryAlu_next_reg hand, BitVec.and_self]
    · rw [binaryAlu_next_reg hor, BitVec.or_self]
  · exact (binaryAlu_next_reg hxor).trans BitVec.xor_self
  · cases hcmp
    exact compareFlags_of_eq rfl

end Sys2Proof.Machine
end

section
/-! The internal fault UnsupportedOperation (R128, R264): nothing raises it, and nothing is refused. -/

namespace Sys2Proof.Machine

/-- The outcomes of a core in which every accepted opcode has its operation: a next state, or a fault that is not
UnsupportedOperation. -/
inductive Supported (r : Result) : Prop
  | next {t : State} (h : r = .next t)
  | faults {info : FaultInfo} (h : FaultsWith r info) (hinfo : ∀ op, info ≠ .unsupportedOperation op)

theorem Supported.ne_unsupportedOperation {r : Result} (h : Supported r) (op : Byte) (t : State) :
    r ≠ .fault (.fatal (.unsupportedOperation op) t) := by
  rintro rfl
  cases h with
  | next h => cases h
  | faults h hinfo => exact hinfo op (h.unique ⟨t, rfl⟩)

theorem Supported.ne_refused {r : Result} (h : Supported r) (why : Refusal) : r ≠ .refused why := by
  rintro rfl
  rcases h with h | ⟨⟨t, h⟩, -⟩
  · cases h
  · cases h

theorem instructionFault_ne_unsupportedOperation (i : Instr) (s : State) (op : Byte) :
    instructionFault i s ≠ some (.unsupportedOperation op) := by
  intro h
  cases i with
  | iret | push | pop | div | mod => cases (Option.ite_some_none_eq_some.1 h).2
  | hlt | prn | pra | int | inc | dec | not | ldi | ld | st => cases h
  | jmp | jeq | jne | jgt | jlt | jle | jge => cases h
  | add | sub | mul | cmp | and | or | xor | shl | shr => cases h

theorem rejectFault_ne_unsupportedOperation (ir : Byte) (pc : Nat) (why : Reject) (op : Byte) :
    rejectFault ir pc why ≠ .unsupportedOperation op := by
  cases why with
  | unsupported => nofun
  | invalidRegister r => nofun

/-- Every instruction has its operation: it completes or stops with its own fault (R128). -/
theorem exec_supported (i : Instr) (s : State) : Supported (exec i s) := by
  cases hfault : instructionFault i s with
  | none =>
    obtain ⟨t, ht⟩ := exec_completes hfault
    exact .next ht
  | some info =>
    exact .faults (exec_faults hfault) fun op hop => instructionFault_ne_unsupportedOperation i s op (hop ▸ hfault)

/-- A trap completes or the stack is too short for its frame (R286). -/
theorem takeInterrupt_supported (l : Line) (s : State) : Supported (takeInterrupt l s) := by
  rw [takeInterrupt_eq]
  split_ifs
  · exact .next rfl
  · exact .faults ⟨_, rfl⟩ nofun

/-- A fetch runs the instruction the decoder reads, or stops with the fault its rejection names (R96). -/
theorem fetchAndExecute_supported (s : State) : Supported (fetchAndExecute s) := by
  cases hdecode : decode (bytesFrom s.mem s.pc) with
  | ok decoded =>
    rw [fetchAndExecute_of_instructionAt ⟨decoded.2, hdecode⟩]
    exact exec_supported _ _
  | error e =>
    cases e with
    | truncated => exact .faults (fetchAndExecute_of_truncated hdecode) nofun
    | rejected why =>
      exact .faults (faultsWith_of_eq_raise (fetchAndExecute_of_rejected hdecode))
        (rejectFault_ne_unsupportedOperation _ _ why)

theorem trapOrExecute_supported (s : State) : Supported (trapOrExecute s) := by
  cases hdue : trapDue s with
  | some l => exact trapOrExecute_trap hdue ▸ takeInterrupt_supported l s
  | none => exact trapOrExecute_noTrap hdue ▸ fetchAndExecute_supported s

/-- A step that does not repeat an earlier fault: a halted core stands still, a running one polls and goes on. -/
theorem step_supported {s : State} (hs : s.run.notFaulted = true) : Supported (step s) := by
  cases hrun : s.run with
  | running => exact step_running hrun ▸ trapOrExecute_supported (poll s)
  | halted => exact .next (step_halted hrun)
  | faulted info => rw [hrun] at hs; cases hs

/-- Settles O47: traps, fetches and instructions are all supported, and a faulted core repeats its fault. -/
theorem unsupportedOperationIsNeverRaised : Obligations.UnsupportedOperationIsNeverRaised := by
  refine ⟨fun s t op hs => (step_supported hs).ne_unsupportedOperation op t, fun s why => ?_⟩
  cases hrun : s.run with
  | running | halted => exact (step_supported (by rw [hrun]; rfl)).ne_refused why
  | faulted info => rw [step_faulted hrun]; nofun

end Sys2Proof.Machine
end

section
/-! Loads and stores: what LDI and LD leave (R150, R151), and what ST leaves (R152). -/

namespace Sys2Proof.Machine

/-- A memory write and the advance change the byte at that address and PC alone. -/
theorem State.frame_writeMem_advance (s : State) (a : Nat) (v : Byte) (n : Nat) :
    Frame [] [a] s ((s.setMem (s.mem.write a v)).advance n) :=
  ⟨fun _ _ => rfl, fun _ hc => Memory.read_write_ne _ _ (List.ne_of_not_mem_cons hc),
    rfl, rfl, rfl, rfl, rfl, rfl, rfl, rfl⟩

/-- After a register write and the advance of a three-byte instruction: the register, PC and the frame. -/
theorem State.setReg_advance_writes (s : State) (r : RegNum) (v : Byte) :
    ((s.setReg r v).advance 3).reg r = v ∧ ((s.setReg r v).advance 3).pc = s.pc + 3 ∧
      Frame [r] [] s ((s.setReg r v).advance 3) :=
  ⟨State.reg_setReg_self s r v, rfl, s.frame_setReg_advance r v 3⟩

/-- Settles O28: each writes its first register and advances, LD with the byte `loadIndirect_eq` reads. -/
theorem ldiAndLdWriteOneRegister : Obligations.LdiAndLdWriteOneRegister :=
  ⟨decodesRI_of_row rfl, fun a imm s => ⟨_, rfl, s.setReg_advance_writes a imm⟩,
    decodesRR_of_row rfl, fun a b s => ⟨_, loadIndirect_eq a b s, s.setReg_advance_writes a _⟩⟩

/-- Settles O29: ST is one memory write and the advance; a byte as the address is always inside memory. -/
theorem stStoresOneByte : Obligations.StStoresOneByte :=
  ⟨decodesRR_of_row rfl, fun a b s => ⟨_, storeIndirect_eq a b s,
    Memory.read_write_self s.mem (s.reg a).toNat (s.reg b), rfl, rfl,
    s.frame_writeMem_advance (s.reg a).toNat (s.reg b) 3⟩⟩

end Sys2Proof.Machine
end

section
/-! The stack instructions: what PUSH and POP leave or how they fault (R170, R171), and their round trip (R172). -/

namespace Sys2Proof.Machine

/-! ## What PUSH and POP leave -/

/-- PUSH changes SP, the byte it stores and PC alone. -/
theorem State.frame_pushed_advance (s : State) (r : RegNum) :
    Frame [SP] [(pushAddress s).toNat] s ((s.pushed (uint (s.reg r))).advance 2) :=
  have heffect : Effect (.push r) s ((s.pushed (uint (s.reg r))).advance 2) := .push r rfl
  ⟨heffect.keepsRegs, heffect.keepsMem, rfl, rfl, rfl, rfl, rfl, rfl, rfl, rfl⟩

/-- POP changes its register, SP and PC alone. -/
theorem State.frame_popped_advance (s : State) (r : RegNum) :
    Frame [r, SP] [] s ((s.popped.setReg r (s.mem.read (s.reg SP).toNat)).advance 2) :=
  have heffect : Effect (.pop r) s ((s.popped.setReg r (s.mem.read (s.reg SP).toNat)).advance 2) := .pop r rfl
  ⟨heffect.keepsRegs, heffect.keepsMem, rfl, rfl, rfl, rfl, rfl, rfl, rfl, rfl⟩

/-- The byte a push stores is read back just below the old SP. -/
theorem State.pushed_read_below (s : State) (b : Byte) :
    (s.pushed (uint b)).mem.read ((s.reg SP).toNat - 1) = b := by
  rw [State.pushed_mem, Memory.read_write_self, u8_uint]

/-- Unless POP's register is SP itself, SP keeps its increment. -/
theorem State.popped_setReg_sp (s : State) {r : RegNum} (v : Byte) (h : r ≠ SP) :
    (s.popped.setReg r v).reg SP = s.reg SP + 1 := by
  rw [State.reg_setReg_ne _ v h.symm, State.popped_sp]

/-! ## How PUSH and POP fault -/

/-- At SP = 0 the push is refused on the state as it stands (R60). -/
theorem execPush_of_sp_zero {s : State} (r : RegNum) (h : (s.reg SP).toNat = 0) :
    execPush r s = raise (.addressingError (-1)) s := by
  rw [execPush, pushByte_eq, if_neg (by omega)]

/-- At SP = 255 the pop is refused on the state as it stands (R61). -/
theorem execPop_of_sp_top {s : State} (r : RegNum) (h : (s.reg SP).toNat = 255) :
    execPop r s = raise (.addressingError 256) s := by
  rw [execPop, popByte_eq, if_neg (by omega)]

/-- Settles O30: PUSH is one push and the advance, or the fault on the state as it was. -/
theorem pushStoresBelowSp : Obligations.PushStoresBelowSp := by
  refine ⟨decodesR_of_row rfl, fun r s hsp => ?_,
    fun r s hsp => ⟨_, execPush_of_sp_zero r hsp, fun _ => rfl, fun _ => rfl⟩⟩
  have hlower : ((s.pushed (uint (s.reg r))).reg SP).toNat = (s.reg SP).toNat - 1 := by
    rw [State.pushed_sp, sp_pred_toNat hsp]
  have hstored : (s.pushed (uint (s.reg r))).mem.read (pushAddress s).toNat = s.reg r := by
    rw [pushAddress_toNat, State.pushed_read_below]
  exact ⟨_, execPush_next.2 ⟨hsp, rfl⟩, hlower, hstored, pushAddress_toNat s, rfl, s.frame_pushed_advance r⟩

/-- Settles O31: POP is one pop, the register write and the advance, or the fault on the state as it was. -/
theorem popLoadsFromSp : Obligations.PopLoadsFromSp := by
  refine ⟨decodesR_of_row rfl, fun r s hsp => ?_, fun r s hsp => ⟨_, execPop_of_sp_top r hsp, fun _ => rfl⟩⟩
  have hhigher : ∀ v, r ≠ SP → ((s.popped.setReg r v).reg SP).toNat = (s.reg SP).toNat + 1 := fun v hr => by
    rw [State.popped_setReg_sp s v hr, sp_succ_toNat hsp]
  exact ⟨_, execPop_next.2 ⟨hsp, rfl⟩, State.reg_setReg_self _ _ _, hhigher _, rfl, s.frame_popped_advance r⟩

/-! ## The round trip -/

/-- PUSH neither reads nor writes FL. -/
theorem execPush_setFl {r : RegNum} {s t : State} (h : execPush r s = .next t) (v : Byte) :
    execPush r (s.setFl v) = .next (t.setFl v) := by
  obtain ⟨hsp, rfl⟩ := execPush_next.1 h
  exact execPush_next.2 ⟨hsp, rfl⟩

/-- POP neither reads nor writes FL. -/
theorem execPop_setFl {r : RegNum} {s t : State} (h : execPop r s = .next t) (v : Byte) :
    execPop r (s.setFl v) = .next (t.setFl v) := by
  obtain ⟨hsp, rfl⟩ := execPop_next.1 h
  exact execPop_next.2 ⟨hsp, rfl⟩

/-- A push lowers SP below 255, so a pop may follow it. -/
theorem State.pushed_sp_lt (s : State) (v : Int) (h : 0 < (s.reg SP).toNat) :
    ((s.pushed v).reg SP).toNat < 255 := by
  have hlt := (s.reg SP).isLt
  rw [State.pushed_sp, sp_pred_toNat h]
  omega

/-- The byte at SP after a push is the one just pushed. -/
theorem State.pushed_read_sp (s : State) (b : Byte) (h : 0 < (s.reg SP).toNat) :
    (s.pushed (uint b)).mem.read ((s.pushed (uint b)).reg SP).toNat = b := by
  rw [State.pushed_sp, sp_pred_toNat h, State.pushed_read_below]

/-- Settles O32: the pop reads the byte just pushed and undoes the push's decrement of SP. -/
theorem pushThenPopRoundTrip : Obligations.PushThenPopRoundTrip := by
  intro r q s hsp
  have hpush : execPush r s = .next ((s.pushed (uint (s.reg r))).advance 2) := execPush_next.2 ⟨hsp, rfl⟩
  have hpop := (execPop_next (r := q) (s := (s.pushed (uint (s.reg r))).advance 2)).2
    ⟨s.pushed_sp_lt (uint (s.reg r)) hsp, rfl⟩
  refine ⟨_, _, hpush, hpop, ?_, fun hq => ?_, rfl, rfl, fun v => ⟨execPush_setFl hpush v, execPop_setFl hpop v⟩⟩
  · rw [State.advance_reg, State.reg_setReg_self]
    exact s.pushed_read_sp (s.reg r) hsp
  · rw [State.advance_reg, State.popped_setReg_sp _ _ hq, State.advance_reg, State.pushed_sp]
    exact BitVec.sub_add_cancel _ _

end Sys2Proof.Machine
end

section
/-! The jumps: where each goes and what it leaves (R190 to R197), the conditions after a comparison (R198), and that the
upper bits of FL are never tested (R26, R198). -/

namespace Sys2Proof.Machine

/-! ## What a jump leaves -/

/-- A jump changes PC alone: to its register's value when taken, 2 further when not. -/
theorem jumpWhen_leaves (taken : Bool) (r : RegNum) (s : State) :
    ∃ t, jumpWhen taken r s = .next t ∧ t.pc = (if taken then (s.reg r).toNat else s.pc + 2) ∧ Frame [] [] s t := by
  have hframe (n : Nat) : Frame [] [] s (s.setPc n) :=
    ⟨fun _ _ => rfl, fun _ _ => rfl, rfl, rfl, rfl, rfl, rfl, rfl, rfl, rfl⟩
  cases taken with
  | true => exact ⟨_, rfl, rfl, hframe _⟩
  | false => exact ⟨_, rfl, rfl, hframe _⟩

/-- The rule of a jump, from its row and the condition on FL that its meaning tests. -/
theorem jumpRule_of_row {opcode : Byte} {f : RegNum → Instr} {cond : Byte → Bool}
    (hrow : findRow opcode opcodeRows = some (.r f)) (hexec : ∀ r s, exec (f r) s = jumpWhen (cond s.fl) r s) :
    JumpRule opcode f cond :=
  ⟨decodesR_of_row hrow, fun r s => hexec r s ▸ jumpWhen_leaves (cond s.fl) r s⟩

/-- JNE's condition, which the model writes as the negation of a mask test (R193). -/
theorem condNe_eq (fl : Byte) : condNe fl = decide (fl &&& 0b001 = 0) := by
  rw [condNe, maskTest, decide_not, Bool.not_not, flagE]

/-- Settles O33: each jump is `jumpWhen` on its own mask test of FL. -/
theorem jumpsGoThroughTheirRegister : Obligations.JumpsGoThroughTheirRegister :=
  ⟨jumpRule_of_row rfl fun _ _ => rfl, jumpRule_of_row rfl fun _ _ => rfl,
    jumpRule_of_row rfl fun _ s => condNe_eq s.fl ▸ rfl, jumpRule_of_row rfl fun _ _ => rfl,
    jumpRule_of_row rfl fun _ _ => rfl, jumpRule_of_row rfl fun _ _ => rfl, jumpRule_of_row rfl fun _ _ => rfl⟩

/-! ## The conditions after a comparison -/

/-- The comparison's L, G and E bits are the three unsigned relations (R124). -/
theorem compareFlags_bits (a b : Byte) :
    (compareFlags a b).getLsbD 2 = decide (a.toNat < b.toNat) ∧
    (compareFlags a b).getLsbD 1 = decide (b.toNat < a.toNat) ∧
    (compareFlags a b).getLsbD 0 = decide (a.toNat = b.toNat) := by
  rcases lt_trichotomy a.toNat b.toNat with hlt | heq | hgt
  · simp [compareFlags_of_lt hlt, hlt, hlt.not_gt, hlt.ne]
  · simp [compareFlags_of_eq heq, heq]
  · simp [compareFlags_of_gt hgt, hgt, hgt.not_gt, hgt.ne']

/-- Settles O34: each condition tests the bits of FL that the comparison sets for its relation. -/
theorem comparisonDecidesTheJumps : Obligations.ComparisonDecidesTheJumps := by
  intro a b s t h
  have hfl : t.fl = compareFlags (s.reg a) (s.reg b) := by cases h; rfl
  obtain ⟨hl, hg, he⟩ := compareFlags_bits (s.reg a) (s.reg b)
  rw [hfl]
  refine ⟨?eq, ?ne, ?gt, ?ge, ?lt, ?le⟩
  case eq => rw [condEq_bit, he, decide_eq_true_iff]
  case ne => rw [condNe_bit, he, ← decide_not, decide_eq_true_iff]
  case gt => rw [condGt_bit, hg, decide_eq_true_iff]
  case ge => rw [condGe_bit, hg, he, ← Bool.decide_or, decide_eq_true_iff, Nat.le_iff_lt_or_eq, eq_comm]
  case lt => rw [condLt_bit, hl, decide_eq_true_iff]
  case le => rw [condLe_bit, hl, he, ← Bool.decide_or, decide_eq_true_iff, Nat.le_iff_lt_or_eq]

/-! ## The upper bits of FL -/

/-- Bytes that agree under the mask of L, G and E have the same L, G and E. -/
theorem getLsbD_of_flagBits_eq {x y : Byte} (h : x &&& 0b111 = y &&& 0b111) {j : Nat} (hj : j < 3) :
    x.getLsbD j = y.getLsbD j := by
  have hbit : (x &&& 0b111).getLsbD j = (y &&& 0b111).getLsbD j := by rw [h]
  have hmask : (0b111 : Byte).getLsbD j = true := by interval_cases j <;> rfl
  rwa [BitVec.getLsbD_and, BitVec.getLsbD_and, hmask, Bool.and_true, Bool.and_true] at hbit

/-- Two outcomes that are the same apart from FL, which is masked out as in O35. -/
def AgreeButFl (r r' : Result) : Prop := mapState (fun t => t.setFl 0) r = mapState (fun t => t.setFl 0) r'

/-- A test that does not depend on FL, such as those of the divisor and of SP, is decided alike for both. -/
theorem AgreeButFl.ite {c : Prop} [Decidable c] {p p' q q' : Result} (hp : AgreeButFl p p') (hq : AgreeButFl q q') :
    AgreeButFl (if c then p else q) (if c then p' else q') := by
  split_ifs
  · exact hp
  · exact hq

theorem State.poppedInto_setFl (s : State) (v : Byte) (rs : List RegNum) :
    (s.setFl v).poppedInto rs = (s.poppedInto rs).setFl v := by
  induction rs generalizing s with
  | nil => rfl
  | cons r rs ih => exact ih (s.popped.setReg r (s.mem.read (s.reg SP).toNat))

section
variable (s : State) (x y : Byte)

theorem divisionAlu_agreeButFl (g : Byte → Byte → Byte) (a b : RegNum) :
    AgreeButFl (divisionAlu g a b (s.setFl x)) (divisionAlu g a b (s.setFl y)) :=
  .ite (c := s.reg b = 0) rfl rfl

theorem jumpWhen_agreeButFl (taken : Bool) (r : RegNum) :
    AgreeButFl (jumpWhen taken r (s.setFl x)) (jumpWhen taken r (s.setFl y)) := by
  cases taken with
  | true => rfl
  | false => rfl

theorem execPush_agreeButFl (r : RegNum) : AgreeButFl (execPush r (s.setFl x)) (execPush r (s.setFl y)) := by
  rw [execPush, execPush, pushByte_eq, pushByte_eq]
  exact .ite (c := 0 < (s.reg SP).toNat) rfl rfl

theorem execPop_agreeButFl (r : RegNum) : AgreeButFl (execPop r (s.setFl x)) (execPop r (s.setFl y)) := by
  rw [execPop, execPop, popByte_eq, popByte_eq]
  exact .ite (c := (s.reg SP).toNat < 255) rfl rfl

/-- A return from interrupt pops FL; where a pop before that faults, FL is as it was. -/
theorem returnFromInterrupt_agreeButFl :
    AgreeButFl (returnFromInterrupt (s.setFl x)) (returnFromInterrupt (s.setFl y)) := by
  simp only [returnFromInterrupt_eq, State.setFl_reg, State.setFl_mem, State.poppedInto_setFl]
  exact .ite (c := (s.reg SP).toNat ≤ 246) rfl (.ite (c := (s.reg SP).toNat ≤ 247) rfl rfl)

end

/-- A jump whose condition does not tell the two FL bytes apart. -/
theorem jumpOnFlags_agreeButFl (s : State) {x y : Byte} (cond : Byte → Bool) (r : RegNum) (hcond : cond x = cond y) :
    AgreeButFl (jumpWhen (cond (s.setFl x).fl) r (s.setFl x)) (jumpWhen (cond (s.setFl y).fl) r (s.setFl y)) := by
  rw [State.setFl_fl, State.setFl_fl, hcond]
  exact jumpWhen_agreeButFl s x y (cond y) r

/-- With the same L, G and E every instruction has the same outcome apart from FL: the conditional jumps read those three
bits, and no other instruction reads FL. -/
theorem exec_agreeButFl (i : Instr) (s : State) {x y : Byte} (hl : x.getLsbD 2 = y.getLsbD 2)
    (hg : x.getLsbD 1 = y.getLsbD 1) (he : x.getLsbD 0 = y.getLsbD 0) :
    AgreeButFl (exec i (s.setFl x)) (exec i (s.setFl y)) := by
  cases i with
  | jmp r => exact jumpWhen_agreeButFl s x y true r
  | jeq r => exact jumpOnFlags_agreeButFl s condEq r (by rw [condEq_bit, condEq_bit, he])
  | jne r => exact jumpOnFlags_agreeButFl s condNe r (by rw [condNe_bit, condNe_bit, he])
  | jgt r => exact jumpOnFlags_agreeButFl s condGt r (by rw [condGt_bit, condGt_bit, hg])
  | jge r => exact jumpOnFlags_agreeButFl s condGe r (by rw [condGe_bit, condGe_bit, hg, he])
  | jlt r => exact jumpOnFlags_agreeButFl s condLt r (by rw [condLt_bit, condLt_bit, hl])
  | jle r => exact jumpOnFlags_agreeButFl s condLe r (by rw [condLe_bit, condLe_bit, hl, he])
  | iret => exact returnFromInterrupt_agreeButFl s x y
  | push r => exact execPush_agreeButFl s x y r
  | pop r => exact execPop_agreeButFl s x y r
  | div a b => exact divisionAlu_agreeButFl s x y aluDiv a b
  | mod a b => exact divisionAlu_agreeButFl s x y aluMod a b
  | ld a b => simp only [exec, execLd, loadIndirect_eq]; rfl
  | st a b => simp only [exec, execSt, storeIndirect_eq]; rfl
  | hlt | prn | pra | int | inc | dec | not | ldi => rfl
  | add | sub | mul | cmp | and | or | xor | shl | shr => rfl

/-- Settles O35: bytes that agree in bits 2 to 0 have the same L, G and E, the only bits an instruction reads. -/
theorem upperFlagBitsAreNeverTested : Obligations.UpperFlagBitsAreNeverTested := fun i s _ _ h =>
  exec_agreeButFl i s (getLsbD_of_flagBits_eq h (by decide)) (getLsbD_of_flagBits_eq h (by decide))
    (getLsbD_of_flagBits_eq h (by decide))

end Sys2Proof.Machine
end

section
/-! The interrupt instructions: what INT marks and that its line is trapped for next (R220, R277, R278), what IRET pops
or how it faults (R221), and that it undoes a trap (R223). -/

namespace Sys2Proof.Machine

/-! ## INT -/

theorem exec_int (r : RegNum) (s : State) :
    exec (.int r) s = .next ((s.setReg IS (raiseLine (s.reg IS) (s.reg r))).advance 2) := rfl

/-- A line number of 8 or more marks nothing (R220). -/
theorem raiseLine_of_ge (is : Byte) {line : Byte} (h : 8 ≤ line.toNat) : raiseLine is line = is := by
  refine BitVec.eq_of_getLsbD_eq fun j hj => ?_
  rw [raiseLine_bit, decide_eq_false (show j ≠ line.toNat by omega), Bool.and_false, Bool.or_false]

/-- Settles O36: INT is one write of IS, whose bits `raiseLine_bit` gives, and the advance. -/
theorem intMarksTheLinePending : Obligations.IntMarksTheLinePending := by
  refine ⟨decodesR_of_row rfl, fun r s => ⟨_, exec_int r s, ?_⟩⟩
  rw [State.advance_reg, State.reg_setReg_self]
  refine ⟨fun j hj => ?_, fun h => raiseLine_of_ge _ h, rfl, s.frame_setReg_advance IS _ 2⟩
  rw [raiseLine_bit, decide_eq_true hj, Bool.true_and]

/-! ## The trap after INT -/

/-- A poll only sets bits of IS: a pending line stays pending (R271, R274). -/
theorem poll_keepsPending {s : State} {j : Nat} (h : (s.reg IS).getLsbD j = true) :
    ((poll s).reg IS).getLsbD j = true := by
  match j with
  | 0 => rw [poll_is_bit_zero, h, ite_self]
  | 1 => rw [poll_is_bit_one, h, Bool.or_true]
  | j + 2 => rw [poll_is_bit s (by omega), h]

/-- With interrupts on and a line pending and enabled, a trap is due, for the lowest such line (R277, R278). -/
theorem trapDue_of_pending {s : State} (hie : s.ie = true) {l : Line}
    (hl : (s.reg IM &&& s.reg IS).getLsbD l.val = true) :
    ∃ i, trapDue s = some i ∧ LowestPending i s ∧ i ≤ l := by
  rw [trapDue, if_pos hie]
  cases hscan : lowestLine (s.reg IM &&& s.reg IS) with
  | none => exact absurd hl (by simp [(lowestLine_none _).1 hscan])
  | some i =>
    have hlowest : LowestPending i s := (lowestLine_some _ i).1 hscan
    refine ⟨i, rfl, hlowest, le_of_not_gt fun hlt => ?_⟩
    exact Bool.false_ne_true ((hlowest.2 l hlt).symm.trans hl)

/-- Settles O15: INT sets the line's bit, the poll keeps it, and the scan finds it or a lower one. -/
theorem raisedLineTrapsBeforeTheNextInstruction : Obligations.RaisedLineTrapsBeforeTheNextInstruction := by
  intro r s t hrun hie hline hmask h
  obtain ⟨t', ht', hbits, -, -, hregs, -, -, hkeepsIe, -, hkeepsRun, -⟩ := intMarksTheLinePending.2 r s
  obtain rfl : t' = t := Host.Outcome.next.inj (ht'.symm.trans h)
  have hmarked : (t'.reg IS).getLsbD (s.reg r).toNat = true := by
    rw [hbits _ hline, decide_eq_true rfl, Bool.or_true]
  obtain ⟨hpollRegs, -, -, -, hpollIe, -⟩ := poll_frame t'
  have hpending : ((poll t').reg IM &&& (poll t').reg IS).getLsbD (s.reg r).toNat = true := by
    rw [BitVec.getLsbD_and, hpollRegs IM (by decide), hregs IM (by decide), hmask, poll_keepsPending hmarked]
    rfl
  obtain ⟨i, hdue, hlowest, hle⟩ :=
    trapDue_of_pending (hpollIe.trans (hkeepsIe.trans hie)) (l := ⟨(s.reg r).toNat, hline⟩) hpending
  exact ⟨i, hlowest, hle, (step_running (hkeepsRun.trans hrun)).trans (trapOrExecute_trap hdue)⟩

/-! ## The pops of IRET -/

/-- After pops into distinct registers each one holds the byte of its own pop, and any other its old value. -/
theorem popValue_of_nodup (read : Nat → Byte) (old : Byte) (r : RegNum) {rs : List RegNum} (h : rs.Nodup) (k : Nat) :
    popValue read old r rs k = if r ∈ rs then read (k + rs.idxOf r) else old := by
  induction rs generalizing old k with
  | nil => rfl
  | cons q rs ih =>
    obtain ⟨hq, hrs⟩ := List.nodup_cons.1 h
    rw [popValue, ih _ hrs]
    by_cases hrq : r = q
    · subst hrq
      rw [if_neg hq, if_pos rfl, if_pos List.mem_cons_self, List.idxOf_cons_self, Nat.add_zero]
    · simp only [List.mem_cons, hrq, false_or, if_false]
      rw [List.idxOf_cons_ne _ (Ne.symm hrq), Nat.add_right_comm, Nat.add_assoc]

/-- Register `r` is popped as number `6 - r`, so among the first `n` pops when that is below `n` (R221). -/
theorem returnOrder_take (r : RegNum) (hr : r ≠ SP) {n : Nat} (hn : n ≤ 7) :
    (returnOrder.take n).Nodup ∧ (r ∈ returnOrder.take n ↔ 6 - r.val < n) ∧
      (6 - r.val < n → (returnOrder.take n).idxOf r = 6 - r.val) := by
  revert r
  interval_cases n <;> decide

/-- The registers after the first `n` pops of IRET, when these fit. -/
theorem State.poppedInto_returnOrder_reg {s : State} {n : Nat} (hn : n ≤ 7) (h : (s.reg SP).toNat + n ≤ 255) :
    ((s.poppedInto (returnOrder.take n)).reg SP).toNat = (s.reg SP).toNat + n ∧
    ∀ r, r ≠ SP → (s.poppedInto (returnOrder.take n)).reg r =
      if 6 - r.val < n then s.mem.read ((s.reg SP).toNat + (6 - r.val)) else s.reg r := by
  have hlength : (returnOrder.take n).length = n := by simpa using hn
  have hsp : SP ∉ returnOrder.take n := fun hmem => absurd (List.mem_of_mem_take hmem) (by decide)
  obtain ⟨hspAfter, hregs⟩ := State.poppedInto_reg hsp (s := s) (by rwa [hlength])
  refine ⟨hspAfter.trans (by rw [hlength]), fun r hr => ?_⟩
  obtain ⟨hnodup, hmem, hidx⟩ := returnOrder_take r hr hn
  rw [hregs r hr, popValue_of_nodup _ _ _ hnodup]
  by_cases hin : 6 - r.val < n
  · rw [if_pos (hmem.2 hin), if_pos hin, hidx hin, Nat.zero_add]
  · rw [if_neg (mt hmem.1 hin), if_neg hin]

/-- The registers after all seven register pops of IRET. -/
theorem State.poppedInto_returnOrder_reg_all {s : State} (h : (s.reg SP).toNat ≤ 247) :
    ((s.poppedInto returnOrder).reg SP).toNat = (s.reg SP).toNat + 7 ∧
    ∀ r, r ≠ SP → (s.poppedInto returnOrder).reg r = s.mem.read ((s.reg SP).toNat + (6 - r.val)) := by
  obtain ⟨hsp, hregs⟩ := State.poppedInto_returnOrder_reg (s := s) (n := 7) le_rfl (by omega)
  exact ⟨hsp, fun r hr => (hregs r hr).trans (if_pos (by omega))⟩

theorem State.popped_sp_toNat {s : State} (h : (s.reg SP).toNat < 255) :
    (s.popped.reg SP).toNat = (s.reg SP).toNat + 1 := by
  rw [State.popped_sp, sp_succ_toNat h]

/-- Everything an IRET with room for its nine pops leaves (R221). -/
theorem returnFromInterrupt_leaves {s : State} (h : (s.reg SP).toNat ≤ 246) :
    ∃ t, returnFromInterrupt s = .next t ∧
      (∀ r, r ≠ SP → t.reg r = s.mem.read ((s.reg SP).toNat + (6 - r.val))) ∧
      t.fl = s.mem.read ((s.reg SP).toNat + 7) ∧ t.pc = (s.mem.read ((s.reg SP).toNat + 8)).toNat ∧
      (t.reg SP).toNat = (s.reg SP).toNat + 9 := by
  obtain ⟨hsp, hregs⟩ := State.poppedInto_returnOrder_reg_all (s := s) (by omega)
  have heq := (returnFromInterrupt_eq s).trans (if_pos h)
  generalize s.poppedInto returnOrder = u at hsp hregs heq
  have hflPop : (u.popped.reg SP).toNat = (s.reg SP).toNat + 8 := by
    rw [State.popped_sp_toNat (by omega), hsp]
  refine ⟨_, heq, fun r hr => ?_, rfl, rfl, ?_⟩
  · rw [State.setIe_reg, State.jump_reg, State.popped_reg_ne _ hr, State.setFl_reg, State.popped_reg_ne _ hr, hregs r hr]
  · rw [State.setIe_reg, State.jump_reg, State.popped_sp_toNat (by rw [State.setFl_reg]; omega), State.setFl_reg, hflPop]

/-- An IRET without room for its nine pops stops at SP = 255 with the pops before that done (R221). -/
theorem returnFromInterrupt_stops {s : State} (h : 247 ≤ (s.reg SP).toNat) :
    ∃ t, returnFromInterrupt s = .fault (.fatal (.addressingError 256) t) ∧
      (∀ r, r ≠ SP → t.reg r =
        if (s.reg SP).toNat + (6 - r.val) < 255 then s.mem.read ((s.reg SP).toNat + (6 - r.val)) else s.reg r) ∧
      t.fl = (if (s.reg SP).toNat + 7 < 255 then s.mem.read ((s.reg SP).toNat + 7) else s.fl) ∧
      t.reg SP = 255 ∧ t.pc = s.pc ∧ t.ie = s.ie := by
  have hlt := (s.reg SP).isLt
  rw [returnFromInterrupt_eq, if_neg (by omega)]
  by_cases hfl : (s.reg SP).toNat ≤ 247
  · obtain ⟨hsp, hregs⟩ := State.poppedInto_returnOrder_reg_all hfl
    obtain ⟨-, -, hpc, -, hie, -⟩ := s.poppedInto_keeps returnOrder
    rw [if_pos hfl, if_pos (show (s.reg SP).toNat + 7 < 255 by omega)]
    generalize s.poppedInto returnOrder = u at hsp hregs hpc hie
    refine ⟨_, rfl, fun r hr => ?_, rfl, BitVec.eq_of_toNat_eq ?_, hpc, hie⟩
    · rw [if_pos (by omega)]
      exact (State.popped_reg_ne _ hr).trans (hregs r hr)
    · rw [State.setRun_reg, State.setFl_reg, State.popped_sp_toNat (by omega), hsp]
      change (s.reg SP).toNat + 7 + 1 = 255
      omega
  · obtain ⟨hsp, hregs⟩ :=
      State.poppedInto_returnOrder_reg (s := s) (n := 255 - (s.reg SP).toNat) (by omega) (by omega)
    obtain ⟨-, hkeepsFl, hpc, -, hie, -⟩ := s.poppedInto_keeps (returnOrder.take (255 - (s.reg SP).toNat))
    rw [if_neg hfl, if_neg (show ¬ (s.reg SP).toNat + 7 < 255 by omega)]
    generalize s.poppedInto (returnOrder.take (255 - (s.reg SP).toNat)) = u at hsp hregs hkeepsFl hpc hie
    refine ⟨_, rfl, fun r hr => ?_, hkeepsFl, BitVec.eq_of_toNat_eq ?_, hpc, hie⟩
    · rw [State.setRun_reg, hregs r hr]
      exact if_congr (by omega) rfl rfl
    · rw [State.setRun_reg, hsp]
      exact Nat.add_sub_of_le (by omega)

/-- Settles O11: nine pops that fit, each register getting the byte of its own pop, or the fault of the pop that starts at
SP = 255 on the state the earlier ones left. -/
theorem iretPopsNineBytesAndEnablesInterrupts : Obligations.IretPopsNineBytesAndEnablesInterrupts := by
  refine ⟨decodesZ_of_row rfl, fun s => ⟨fun hsp => ?_, returnFromInterrupt_stops⟩⟩
  obtain ⟨t, ht, hregs, hfl, hpc, hspAfter⟩ := returnFromInterrupt_leaves hsp
  obtain ⟨hie, hmem, hir, hrun, htacc, hout, hinputs, hpolled, -⟩ := returnFromInterrupt_next ht
  exact ⟨t, ht, hregs, hpc, hspAfter, fun r hr => absurd (mem_writtenRegs_iret r) hr, fun a _ => by rw [hmem]; rfl,
    hfl, hie, hir, hrun, htacc, hout, hinputs, hpolled⟩

/-! ## IRET after a trap -/

/-- A trap that goes on had nine bytes of room, and its frame lies from the new SP on, last byte first (R280). -/
theorem takeInterrupt_frame {l : Line} {s t : State} (h : takeInterrupt l s = .next t) :
    9 ≤ (s.reg SP).toNat ∧ (t.reg SP).toNat = (s.reg SP).toNat - 9 ∧
      ∀ k < 9, t.mem.read ((t.reg SP).toNat + k) = (trapFrame s).getD (8 - k) 0 := by
  rw [takeInterrupt_eq] at h
  split_ifs at h with hroom
  · cases h
    have hfits : (trapFrame s).length ≤ (s.trapBase.reg SP).toNat := by rwa [s.trapBase_sp, trapFrame_length]
    have hsp : ((s.trapBase.pushAll (trapFrame s)).reg SP).toNat = (s.reg SP).toNat - 9 := by
      rw [State.pushAll_sp hfits, s.trapBase_sp, trapFrame_length]
    refine ⟨hroom, hsp, fun k hk => ?_⟩
    rw [State.jump_reg, State.jump_mem, hsp, State.pushAll_read hfits, s.trapBase_sp, trapFrame_length,
      if_pos (by omega), show (s.reg SP).toNat - 1 - ((s.reg SP).toNat - 9 + k) = 8 - k by omega]
  · exact absurd h (raise_ne_next _ _ _)

/-- The frame's bytes of R0 to R5. -/
theorem trapFrame_getD_reg (s : State) {r : RegNum} (his : r ≠ IS) (hsp : r ≠ SP) :
    (trapFrame s).getD (8 - (6 - r.val)) 0 = s.reg r := by
  match r with
  | 0 | 1 | 2 | 3 | 4 | 5 => rfl
  | 6 => exact absurd rfl his
  | 7 => exact absurd rfl hsp

/-- Settles O12: IRET pops from SP on what the trap left there, in the opposite order to the pushes. -/
theorem iretRightAfterATrapRestores : Obligations.IretRightAfterATrapRestores := by
  intro l s t h
  obtain ⟨hroom, hsp, hframe⟩ := takeInterrupt_frame h
  have hlt := (s.reg SP).isLt
  obtain ⟨u, hu, hregs, hfl, hpc, huSp⟩ := returnFromInterrupt_leaves (s := t) (by omega)
  obtain ⟨hie, -⟩ := returnFromInterrupt_next hu
  refine ⟨u, hu, ?_, hfl.trans (hframe 7 (by omega)), fun r his => ?_,
    (hregs IS (by decide)).trans (hframe 0 (by omega)), hie⟩
  · rw [hpc, hframe 8 (by omega)]
    exact BitVec.toNat_ofNat s.pc 8
  · by_cases hr : r = SP
    · subst hr
      exact BitVec.eq_of_toNat_eq (by omega)
    · rw [hregs r hr, hframe _ (by omega), trapFrame_getD_reg s his hr]

end Sys2Proof.Machine
end

section
/-! Output and halt: what PRN and PRA append and the text it stands for (R240, R241), that nothing else appends (R243),
and that HLT stops the core for good (R242). -/

namespace Sys2Proof.Machine

/-! ## PRN and PRA -/

/-- One event and the advance change the output stream and PC alone. -/
theorem State.frame_emit_advance (s : State) (e : OutEvent) (n : Nat) :
    Frame [] [] (s.setOut (s.out ++ [e])) ((s.emit e).advance n) :=
  ⟨fun _ _ => rfl, fun _ _ => rfl, rfl, rfl, rfl, rfl, rfl, rfl, rfl, rfl⟩

theorem consoleText_singleton (e : OutEvent) : consoleText [e] = e.text := List.flatMap_singleton _ _

/-- The text of a longer stream begins with the text of the shorter one (R243). -/
theorem consoleText_concat (out : List OutEvent) (e : OutEvent) :
    consoleText (out ++ [e]) = consoleText out ++ e.text := by
  rw [consoleText, List.flatMap_append, ← consoleText, ← consoleText, consoleText_singleton]

/-- The model's digits are those of the number's standard decimal string (R240). -/
theorem OutEvent.text_prn (v : Byte) : (OutEvent.prn v).text = (toString v.toNat).toList ++ ['\n'] := by
  rw [OutEvent.text, Nat.toString_eq_repr, Nat.repr, String.toList_ofList]

/-- Settles O37: each emits its register's value and advances, and one event's text is the whole text. -/
theorem prnAndPraEmitOneEvent : Obligations.PrnAndPraEmitOneEvent :=
  ⟨decodesR_of_row rfl, fun r s => ⟨_, rfl, rfl, s.frame_emit_advance (.prn (s.reg r)) 2⟩,
    decodesR_of_row rfl, fun r s => ⟨_, rfl, rfl, s.frame_emit_advance (.pra (s.reg r)) 2⟩,
    fun v => ⟨(consoleText_singleton _).trans (OutEvent.text_prn v), consoleText_singleton _⟩⟩

/-! ## Who appends to the output -/

/-- The shape of the output rule for the instructions that emit nothing. -/
theorem out_of_silent {i : Instr} {s t : State} (hi : emitted i s = []) (h : t.out = s.out) :
    t.out = s.out ++ emitted i s := by
  rw [hi, h, List.append_nil]

theorem jumpWhen_next_out {taken : Bool} {r : RegNum} {s t : State} (h : jumpWhen taken r s = .next t) :
    t.out = s.out := by
  cases taken with
  | true | false => cases h; rfl

/-- The output rule (R243): PRN and PRA append their one event, and every other meaning keeps the stream. -/
theorem exec_next_out {i : Instr} {s t : State} (h : exec i s = .next t) : t.out = s.out ++ emitted i s := by
  cases i with
  | prn r | pra r => cases h; rfl
  | hlt | int | inc | dec | not | ldi | add | sub | mul | cmp | and | or | xor | shl | shr =>
    cases h
    exact out_of_silent rfl rfl
  | jmp r => exact out_of_silent rfl (jumpWhen_next_out (taken := true) (r := r) h)
  | jeq r | jne r | jgt r | jlt r | jle r | jge r => exact out_of_silent rfl (jumpWhen_next_out (r := r) h)
  | ld a b =>
    cases (loadIndirect_eq a b s).symm.trans h
    exact out_of_silent rfl rfl
  | st a b =>
    cases (storeIndirect_eq a b s).symm.trans h
    exact out_of_silent rfl rfl
  | div a b =>
    cases (execDiv_next.1 h).2
    exact out_of_silent rfl rfl
  | mod a b =>
    cases (execMod_next.1 h).2
    exact out_of_silent rfl rfl
  | push r =>
    obtain ⟨-, rfl⟩ := execPush_next.1 h
    exact out_of_silent rfl rfl
  | pop r =>
    obtain ⟨-, rfl⟩ := execPop_next.1 h
    exact out_of_silent rfl rfl
  | iret =>
    obtain ⟨-, -, -, -, -, hout, -⟩ := returnFromInterrupt_next ((exec_iret s).symm.trans h)
    exact out_of_silent rfl hout

theorem takeInterrupt_next_out {l : Line} {s t : State} (h : takeInterrupt l s = .next t) : t.out = s.out := by
  obtain ⟨-, -, -, -, -, hout, -⟩ := takeInterrupt_next h
  exact hout

theorem poll_out (s : State) : (poll s).out = s.out := by
  obtain ⟨-, -, -, -, -, -, hout, -⟩ := poll_frame s
  exact hout

/-- Settles O43: an instruction appends what it emits, a trap and a poll keep the stream, and the text grows with it. -/
theorem outputGrowsOnlyByPrnAndPra : Obligations.OutputGrowsOnlyByPrnAndPra :=
  ⟨fun _ _ _ h => exec_next_out h, fun _ _ _ h => takeInterrupt_next_out h, poll_out, consoleText_concat⟩

/-! ## HLT -/

/-- The advance and a change of the engine state change those two alone. -/
theorem State.frame_advance_setRun (s : State) (r : RunState) (n : Nat) :
    Frame [] [] (s.setRun r) ((s.advance n).setRun r) :=
  ⟨fun _ _ => rfl, fun _ _ => rfl, rfl, rfl, rfl, rfl, rfl, rfl, rfl, rfl⟩

/-- A state that a step answers unchanged stays however many steps follow. -/
theorem run_of_step_unchanged {M : Host.Core} {s : M.State} (h : M.step s = .next s) (n : Nat) :
    M.run n s = .next s := by
  induction n with
  | zero => rfl
  | succ n ih => rw [Host.Core.run, h]; exact ih

/-- Settles O38: HLT is the advance and the engine state, and a step of a halted core answers the same state. -/
theorem haltStopsTheCoreForGood : Obligations.HaltStopsTheCoreForGood :=
  ⟨decodesZ_of_row rfl, fun s => ⟨_, rfl, rfl, rfl, s.frame_advance_setRun .halted 1⟩,
    fun n _ h => run_of_step_unchanged (M := Sys2Proof.core) (step_halted h) n⟩

end Sys2Proof.Machine
end

section
/-! The trap condition (R277, R278), the frame a trap pushes or begins to push (R279, R280, R286), and that interrupts stay
off until IRET (R285, R288). -/

namespace Sys2Proof.Machine

/-! ## The trap condition -/

theorem trapDue_of_lowestPending {s : State} {l : Line} (hie : s.ie = true) (hl : LowestPending l s) :
    trapDue s = some l := by
  rw [trapDue, if_pos hie]
  exact (lowestLine_some _ l).2 hl

theorem exists_lowestPending {s : State} (h : s.reg IM &&& s.reg IS ≠ 0) : ∃ l, LowestPending l s := by
  obtain ⟨l, hl⟩ := Option.ne_none_iff_exists'.1 (mt (lowestLine_none _).1 h)
  exact ⟨l, (lowestLine_some _ l).1 hl⟩

theorem trapDue_of_ie_false {s : State} (hie : s.ie = false) : trapDue s = none := by
  rw [trapDue, hie, if_neg Bool.false_ne_true]

theorem trapDue_of_nonePending {s : State} (h : s.reg IM &&& s.reg IS = 0) : trapDue s = none := by
  rw [trapDue, (lowestLine_none _).2 h, ite_self]

theorem step_traps {s : State} {l : Line} (hrun : s.run = .running) (hdue : trapDue (poll s) = some l) :
    step s = takeInterrupt l (poll s) := by
  rw [step_running hrun, trapOrExecute_trap hdue]

/-- Settles O9: the scan of the pending and enabled lines finds the lowest, and none exactly when there is none. -/
theorem pendingEnabledLineIsTakenBeforeTheFetch : Obligations.PendingEnabledLineIsTakenBeforeTheFetch := by
  refine fun s hrun => ⟨fun l hie hl => step_traps hrun (trapDue_of_lowestPending hie hl),
    fun _ hpending => exists_lowestPending hpending, fun hno => step_fetches hrun ?_⟩
  rcases hno with hie | hnone
  · exact trapDue_of_ie_false hie
  · exact trapDue_of_nonePending hnone

/-! ## The frame -/

/-- What a trap's pushes leave when they fit, be it the whole frame or the part of it before the fault. -/
theorem State.trapBase_pushAll {s : State} {vs : List Byte} (h : vs.length ≤ (s.reg SP).toNat) :
    (s.trapBase.pushAll vs).ie = false ∧ (s.trapBase.pushAll vs).reg IS = 0 ∧
      ((s.trapBase.pushAll vs).reg SP).toNat = (s.reg SP).toNat - vs.length ∧
      ∀ k < vs.length, (s.trapBase.pushAll vs).mem.read ((s.reg SP).toNat - 1 - k) = vs.getD k 0 := by
  obtain ⟨hregs, -, -, -, hie, -⟩ := s.trapBase.pushAll_keeps vs
  rw [← s.trapBase_sp] at h ⊢
  refine ⟨hie, (hregs IS (by decide)).trans s.trapBase_is, State.pushAll_sp h, fun k hk => ?_⟩
  rw [State.pushAll_read h, if_pos (by omega), Nat.sub_sub_self (by omega)]

/-- All that a trap with nine bytes of room changes: IS, SP, the nine bytes below SP, IE and PC. -/
theorem takeInterrupt_fullFrame {l : Line} {s t : State} (h : takeInterrupt l s = .next t) :
    Frame [IS, SP] ((List.range 9).map fun k => (s.reg SP).toNat - 1 - k) (s.setIe false) t := by
  obtain ⟨hie, hfl, hir, hrun, htacc, hout, hinputs, hpolled, -⟩ := takeInterrupt_next h
  refine ⟨takeInterrupt_keepsRegs h, fun a ha => by_contra fun hne => ha ?_, hfl, hie, hir, hrun, htacc, hout, hinputs,
    hpolled⟩
  obtain ⟨hlow, hhigh⟩ := takeInterrupt_read_ne h hne
  exact List.mem_map.2 ⟨(s.reg SP).toNat - 1 - a, List.mem_range.2 (by omega), by omega⟩

theorem takeInterrupt_completes (l : Line) {s : State} (hroom : 9 ≤ (s.reg SP).toNat) :
    ∃ t, takeInterrupt l s = .next t ∧ t.reg IS = 0 ∧ (t.reg SP).toNat = (s.reg SP).toNat - 9 ∧
      ∀ k < 9, t.mem.read ((s.reg SP).toNat - 1 - k) = (trapFrame s).getD k 0 := by
  obtain ⟨-, his, hsp, hframe⟩ := State.trapBase_pushAll (vs := trapFrame s) hroom
  exact ⟨_, (takeInterrupt_eq l s).trans (if_pos hroom), his, hsp, hframe⟩

/-- A trap without room for its frame stops at SP = 0 with the pushes before that done (R286). -/
theorem takeInterrupt_stops (l : Line) {s : State} (h : (s.reg SP).toNat < 9) :
    ∃ t, takeInterrupt l s = .fault (.fatal (.addressingError (-1)) t) ∧
      t.ie = false ∧ t.reg IS = 0 ∧ (t.reg SP).toNat = 0 ∧
      ∀ k < (s.reg SP).toNat, t.mem.read ((s.reg SP).toNat - 1 - k) = (trapFrame s).getD k 0 := by
  have hlength : ((trapFrame s).take (s.reg SP).toNat).length = (s.reg SP).toNat := by
    rw [List.length_take, trapFrame_length, Nat.min_eq_left h.le]
  obtain ⟨hie, his, hsp, hframe⟩ := State.trapBase_pushAll hlength.le
  rw [hlength] at hsp hframe
  refine ⟨_, (takeInterrupt_eq l s).trans (if_neg (Nat.not_le_of_lt h)), hie, his, hsp.trans (Nat.sub_self _),
    fun k hk => (hframe k hk).trans ?_⟩
  rw [List.getD_eq_getElem?_getD, List.getElem?_take_of_lt hk, List.getD_eq_getElem?_getD]

/-- Settles O10: with nine bytes of room all pushes are done, with less those that fit, each at its own address. -/
theorem trapEntryPushesTheFrame : Obligations.TrapEntryPushesTheFrame := by
  refine fun l s => ⟨fun hroom => ?_, takeInterrupt_stops l⟩
  obtain ⟨t, ht, his, hsp, hframe⟩ := takeInterrupt_completes l hroom
  obtain ⟨hie, -, -, -, -, -, -, -, hpc, -⟩ := takeInterrupt_next ht
  exact ⟨t, ht, hie, his, hsp, hframe, hpc, takeInterrupt_fullFrame ht⟩

/-! ## Interrupts off -/

theorem Effect.ie {i : Instr} {s t : State} (h : Effect i s t) : t.ie = s.ie ∨ i = .iret := by
  cases h with
  | iret hi ht => exact .inr hi
  | halt | compare | push | pop | store | writeReg | emit | jump | fallThrough => exact .inl rfl

/-- Settles O13: with IE false no trap is due, and of the instructions' effects only IRET's writes IE. -/
theorem noTrapWhileInterruptsAreOff : Obligations.NoTrapWhileInterruptsAreOff := by
  intro s hrun hie
  obtain ⟨-, -, -, -, hpollIe, -⟩ := poll_frame s
  have hno : trapDue (poll s) = none := trapDue_of_ie_false (hpollIe.trans hie)
  refine ⟨step_fetches hrun hno, fun t h hon => ?_⟩
  rcases step_next_effect h with ⟨hhalt, -⟩ | ⟨-, l, hdue, -⟩ | ⟨-, -, -, i, hi, heffect⟩
  · exact absurd (hrun.symm.trans hhalt) nofun
  · exact absurd (hno.symm.trans hdue) nofun
  · rcases heffect.ie with hkeep | rfl
    · exact absurd ((hkeep.trans (hpollIe.trans hie)).symm.trans hon) Bool.false_ne_true
    · exact hi

end Sys2Proof.Machine
end

section
/-! The two parts of the poll (R272 to R275), and that every cycle of a running core begins with one (R271, R96). -/

namespace Sys2Proof.Machine

/-- Writes of different registers commute. -/
theorem State.setReg_comm (s : State) {r q : RegNum} (h : r ≠ q) (v w : Byte) :
    (s.setReg r v).setReg q w = (s.setReg q w).setReg r v := by
  refine State.ext_reg (fun p => ?_) rfl rfl rfl rfl rfl rfl rfl rfl rfl rfl
  by_cases hp : p = q
  · simp [hp, h.symm]
  · simp [hp, State.reg_setReg]

/-! ## The timer part -/

theorem Seconds.toRat_nonneg (t : Seconds) : 0 ≤ t.toRat := div_nonneg (Nat.cast_nonneg _) (Nat.cast_nonneg _)

theorem pollTimer_is (e : Seconds) (s : State) :
    (pollTimer e s).reg IS = if 1 ≤ s.tacc.toRat + e.toRat then s.reg IS ||| timerBit else s.reg IS := by
  rw [← Seconds.add_toRat]
  by_cases h : (s.tacc.add e).atLeastOne = true
  · rw [if_pos ((Seconds.atLeastOne_iff _).1 h), pollTimer_fires h, State.setTacc_reg, State.reg_setReg_self]
  · rw [if_neg (mt (Seconds.atLeastOne_iff _).2 h), pollTimer_waits h, State.setTacc_reg]

theorem pollTimer_fullFrame (e : Seconds) (s : State) :
    Frame [IS] [] (s.setTacc (pollTimer e s).tacc) (pollTimer e s) := by
  obtain ⟨hregs, hfl, -, hir, hie, hrun, hmem, hout, hinputs, hpolled⟩ := pollTimer_frame e s
  exact ⟨fun r hr => hregs r (List.ne_of_not_mem_cons hr), fun a _ => by rw [hmem]; rfl, hfl, hie, hir, hrun, rfl, hout,
    hinputs, hpolled⟩

/-- Settles O16: both the accumulator and IS follow the same comparison of the sum with one second. -/
theorem timerPollIsExact : Obligations.TimerPollIsExact := by
  intro e s
  obtain ⟨-, -, hpc, -⟩ := pollTimer_frame e s
  refine ⟨fun hfires => ?_, fun hwaits => ?_, Seconds.toRat_nonneg _, pollTimer_fullFrame e s, hpc⟩
  · rw [pollTimer_tacc_toRat, pollTimer_is, if_pos hfires, if_pos hfires]
    exact ⟨rfl, rfl⟩
  · rw [pollTimer_tacc_toRat, pollTimer_is, if_neg hwaits.not_ge, if_neg hwaits.not_ge]
    exact ⟨rfl, rfl⟩

/-- The time that is missing to one second. -/
def Seconds.untilOne (t : Seconds) : Seconds := ⟨t.den - t.num, t.denMinusOne⟩

theorem Seconds.untilOne_toRat {t : Seconds} (h : t.toRat < 1) : t.untilOne.toRat = 1 - t.toRat := by
  have hle : t.num ≤ t.den := Nat.le_of_not_lt fun hlt =>
    h.not_ge ((Seconds.atLeastOne_iff t).1 (decide_eq_true hlt.le))
  rw [Seconds.toRat, Seconds.toRat, one_sub_div t.den_ne_zero, ← Nat.cast_sub hle]
  rfl

/-- Settles O18: the time missing to one second makes the timer fire on the spot, and no time leaves the accumulator. -/
theorem anyTickSequenceIsPossible : Obligations.AnyTickSequenceIsPossible := by
  intro s h
  have hone : s.tacc.toRat + s.tacc.untilOne.toRat = 1 := by rw [Seconds.untilOne_toRat h, add_sub_cancel]
  have hnone : s.tacc.toRat + Seconds.zero.toRat < 1 := by rwa [Seconds.zero_toRat, add_zero]
  obtain ⟨hfires, -⟩ := timerPollIsExact s.tacc.untilOne s
  obtain ⟨htacc, his⟩ := hfires hone.ge
  obtain ⟨-, hwaits, -⟩ := timerPollIsExact Seconds.zero s
  obtain ⟨htaccWaits, hisWaits⟩ := hwaits hnone
  exact ⟨⟨_, his, by rw [htacc, hone, sub_self]⟩, hisWaits, htaccWaits.trans_lt hnone⟩

/-! ## The key part -/

theorem pollKey_some (b : Byte) (s : State) :
    pollKey (some b) s = (s.setReg IS (s.reg IS ||| keyBit)).setMem (s.mem.write Config.mailbox b) := rfl

theorem pollKey_is (b : Byte) (s : State) : (pollKey (some b) s).reg IS = s.reg IS ||| keyBit :=
  State.reg_setReg_self s IS _

theorem pollKey_fullFrame (b : Byte) (s : State) : Frame [IS] [Config.mailbox] s (pollKey (some b) s) := by
  obtain ⟨hregs, hfl, -, hir, hie, hrun, htacc, hout, hinputs, hpolled⟩ := pollKey_frame (some b) s
  exact ⟨fun r hr => hregs r (List.ne_of_not_mem_cons hr),
    fun a ha => Memory.read_write_ne _ _ (List.ne_of_not_mem_cons ha), hfl, hie, hir, hrun, htacc, hout, hinputs, hpolled⟩

/-- The two parts set different bits of IS and share no other element. -/
theorem pollKey_pollTimer_comm (key : Option Byte) (e : Seconds) (s : State) :
    pollKey key (pollTimer e s) = pollTimer e (pollKey key s) := by
  cases key with
  | none => rfl
  | some b =>
    by_cases h : (s.tacc.add e).atLeastOne = true
    · rw [pollTimer_fires h, pollTimer_fires (s := pollKey (some b) s) h]
      have his : s.reg IS ||| timerBit ||| keyBit = s.reg IS ||| keyBit ||| timerBit := by
        rw [BitVec.or_assoc, BitVec.or_comm timerBit, BitVec.or_assoc]
      refine State.ext_reg (fun r => ?_) rfl rfl rfl rfl rfl rfl rfl rfl rfl rfl
      by_cases hr : r = IS
      · simp [pollKey_some, hr, his]
      · simp [pollKey_some, hr]
    · rw [pollTimer_waits h, pollTimer_waits (s := pollKey (some b) s) h]
      rfl

/-- Settles O17: a ready key is one write of the mailbox and one of IS. -/
theorem keyPollFillsTheMailbox : Obligations.KeyPollFillsTheMailbox :=
  fun s => ⟨rfl, fun b => ⟨Memory.read_write_self _ _ _, pollKey_is b s, pollKey_fullFrame b s, rfl⟩,
    fun e key => pollKey_pollTimer_comm key e s⟩

/-! ## The poll of every cycle -/

/-- A change of state that touches nothing a poll reads and commutes with every write of one. -/
structure IgnoredByPoll (f : State → State) : Prop where
  is (s : State) : (f s).reg IS = s.reg IS
  tacc (s : State) : (f s).tacc = s.tacc
  mem (s : State) : (f s).mem = s.mem
  nextInput (s : State) : (f s).nextInput = s.nextInput
  sampled (s : State) : f s.sampled = (f s).sampled
  setIs (s : State) (v : Byte) : f (s.setReg IS v) = (f s).setReg IS v
  setTacc (s : State) (t : Seconds) : f (s.setTacc t) = (f s).setTacc t
  setMem (s : State) (m : Memory) : f (s.setMem m) = (f s).setMem m

theorem ignoredByPoll_setIe (b : Bool) : IgnoredByPoll fun s => s.setIe b := by
  constructor <;> intros <;> rfl

theorem ignoredByPoll_setReg {r : RegNum} (h : r ≠ IS) (v : Byte) : IgnoredByPoll fun s => s.setReg r v where
  is s := State.reg_setReg_ne s v h.symm
  tacc _ := rfl
  mem _ := rfl
  nextInput _ := rfl
  sampled _ := rfl
  setIs s w := State.setReg_comm s h.symm w v
  setTacc _ _ := rfl
  setMem _ _ := rfl

section
variable {f : State → State} (hf : IgnoredByPoll f)
include hf

theorem IgnoredByPoll.pollTimer (e : Seconds) (s : State) : pollTimer e (f s) = f (pollTimer e s) := by
  simp only [pollTimer_eq, hf.tacc, hf.is]
  split_ifs
  · rw [hf.setTacc, hf.setIs]
  · rw [hf.setTacc]

theorem IgnoredByPoll.pollKey (key : Option Byte) (s : State) : pollKey key (f s) = f (pollKey key s) := by
  cases key with
  | none => rfl
  | some b => rw [pollKey_some, pollKey_some, hf.setMem, hf.setIs, hf.is, hf.mem]

theorem IgnoredByPoll.poll (s : State) : poll (f s) = f (poll s) := by
  rw [Machine.poll, Machine.poll, hf.nextInput, ← hf.sampled, hf.pollTimer, hf.pollKey]

end

/-- An instruction samples no input and counts no poll. -/
theorem Effect.inputs_polled {i : Instr} {s t : State} (h : Effect i s t) : t.inputs = s.inputs ∧ t.polled = s.polled := by
  cases h with
  | iret hi ht =>
    obtain ⟨-, -, -, -, -, -, hinputs, hpolled, -⟩ := returnFromInterrupt_next ht
    exact ⟨hinputs, hpolled⟩
  | halt | compare | push | pop | store | writeReg | emit | jump | fallThrough => exact ⟨rfl, rfl⟩

/-- A step of a running core leaves the accumulator, the inputs and the count as its one poll left them. -/
theorem step_next_polls {s t : State} (hrun : s.run = .running) (h : step s = .next t) :
    t.inputs = s.inputs.tail ∧ t.polled = s.polled + 1 ∧ t.tacc = (poll s).tacc := by
  obtain ⟨-, -, -, -, -, -, -, hpollInputs, hpollPolled⟩ := poll_frame s
  rcases step_next_effect h with ⟨hhalt, -⟩ | ⟨-, l, -, ht⟩ | ⟨-, -, -, i, -, heffect⟩
  · exact absurd (hrun.symm.trans hhalt) nofun
  · obtain ⟨-, -, -, -, htacc, -, hinputs, hpolled, -⟩ := takeInterrupt_next ht
    exact ⟨hinputs.trans hpollInputs, hpolled.trans hpollPolled, htacc⟩
  · obtain ⟨hinputs, hpolled⟩ := heffect.inputs_polled
    exact ⟨hinputs.trans hpollInputs, hpolled.trans hpollPolled, heffect.tacc⟩

/-- Settles O19: the trap or the fetch starts from the polled state, neither touches what the poll counts, and the poll
reads neither IE nor IM. -/
theorem everyCyclePolls : Obligations.EveryCyclePolls :=
  ⟨fun _ hrun => ⟨fun _ hdue => step_traps hrun hdue, step_fetches hrun⟩, fun _ _ hrun h => step_next_polls hrun h,
    fun s b m => ⟨(ignoredByPoll_setIe b).poll s, (ignoredByPoll_setReg (by decide) m).poll s⟩⟩

end Sys2Proof.Machine
end

section
/-! Faults are recorded in the engine state and terminal (R12, R266). -/

namespace Sys2Proof.Machine

/-- If the outcome is a fault, the state it leaves has the engine faulted with just that fault (R12). -/
def RecordsFault (r : Result) : Prop := ∀ info t, r = .fault (.fatal info t) → t.run = .faulted info

theorem recordsFault_next (t : State) : RecordsFault (.next t) := nofun

theorem recordsFault_raise (info : FaultInfo) (s : State) : RecordsFault (raise info s) := by
  intro info' t h
  obtain ⟨rfl, rfl⟩ := (raise_eq_fault _ _ _ _).1 h
  rfl

theorem RecordsFault.ite {c : Prop} [Decidable c] {r r' : Result} (h : RecordsFault r) (h' : RecordsFault r') :
    RecordsFault (if c then r else r') := by
  split_ifs
  · exact h
  · exact h'

/-! ## The operations that can fault -/

theorem divisionAlu_recordsFault (f : Byte → Byte → Byte) (a b : RegNum) (s : State) :
    RecordsFault (divisionAlu f a b s) :=
  .ite (recordsFault_raise _ _) (recordsFault_next _)

theorem execPush_recordsFault (r : RegNum) (s : State) : RecordsFault (execPush r s) := by
  rw [execPush, pushByte_eq]
  exact .ite (recordsFault_next _) (recordsFault_raise _ _)

theorem execPop_recordsFault (r : RegNum) (s : State) : RecordsFault (execPop r s) := by
  rw [execPop, popByte_eq]
  exact .ite (recordsFault_next _) (recordsFault_raise _ _)

theorem returnFromInterrupt_recordsFault (s : State) : RecordsFault (returnFromInterrupt s) := by
  rw [returnFromInterrupt_eq]
  exact .ite (recordsFault_next _) (.ite (recordsFault_raise _ _) (recordsFault_raise _ _))

theorem takeInterrupt_recordsFault (l : Line) (s : State) : RecordsFault (takeInterrupt l s) := by
  rw [takeInterrupt_eq]
  exact .ite (recordsFault_next _) (recordsFault_raise _ _)

/-- An instruction with no fault of its own completes, and the others raise theirs. -/
theorem exec_recordsFault (i : Instr) (s : State) : RecordsFault (exec i s) := by
  cases hfault : instructionFault i s with
  | none =>
    obtain ⟨t, ht⟩ := exec_completes hfault
    exact ht ▸ recordsFault_next t
  | some info =>
    cases i with
    | iret => exact returnFromInterrupt_recordsFault s
    | push r => exact execPush_recordsFault r s
    | pop r => exact execPop_recordsFault r s
    | div a b | mod a b => exact divisionAlu_recordsFault _ a b s
    | hlt | prn | pra | int | inc | dec | not | ldi | ld | st => cases hfault
    | jmp | jeq | jne | jgt | jlt | jle | jge => cases hfault
    | add | sub | mul | cmp | and | or | xor | shl | shr => cases hfault

/-! ## The step -/

theorem decodeAndExecute_recordsFault (operands : List Byte) (s : State) :
    RecordsFault (decodeAndExecute operands s) := by
  cases hdecode : decodeFetched s.ir operands with
  | ok i =>
    rw [decodeAndExecute, hdecode]
    exact exec_recordsFault i s
  | error why => exact decodeAndExecute_of_error hdecode ▸ recordsFault_raise _ s

theorem fetchAndExecute_recordsFault (s : State) : RecordsFault (fetchAndExecute s) := by
  by_cases hpc : s.pc < 256
  · by_cases hcount : operandCount (s.mem.read s.pc) = 3
    · exact fetchAndExecute_of_count_three hpc hcount ▸ recordsFault_raise _ _
    · by_cases hin : s.pc + operandCount (s.mem.read s.pc) < 256
      · exact fetchAndExecute_in hcount hin ▸ decodeAndExecute_recordsFault _ _
      · exact fetchAndExecute_past hpc hcount (Nat.le_of_not_lt hin) ▸ recordsFault_raise _ _
  · exact fetchAndExecute_outside (Nat.le_of_not_lt hpc) ▸ recordsFault_raise _ _

theorem trapOrExecute_recordsFault (s : State) : RecordsFault (trapOrExecute s) := by
  cases hdue : trapDue s with
  | some l => exact trapOrExecute_trap hdue ▸ takeInterrupt_recordsFault l s
  | none => exact trapOrExecute_noTrap hdue ▸ fetchAndExecute_recordsFault s

/-- A step raises its fault, or repeats the one its state has recorded. -/
theorem step_recordsFault (s : State) : RecordsFault (step s) := by
  cases hrun : s.run with
  | running => exact step_running hrun ▸ trapOrExecute_recordsFault (poll s)
  | halted => exact step_halted hrun ▸ recordsFault_next s
  | faulted info =>
    intro info' t h
    cases (step_faulted hrun).symm.trans h
    exact hrun

/-- Settles O45: the state a fault leaves has recorded it, and a step from there answers what is recorded. -/
theorem faultsAreRecordedAndTerminal : Obligations.FaultsAreRecordedAndTerminal := fun s t info h =>
  have hrun : t.run = .faulted info := step_recordsFault s info t h
  ⟨hrun, step_faulted hrun⟩

end Sys2Proof.Machine
end

section
/-! The load port (R322): an image of at most 256 bytes is copied, and the 257th byte of a longer one faults. -/

namespace Sys2Proof.Machine

/-- The first byte past the top of memory ends the load, wherever in the image the load stands (R322, R52). -/
theorem loadFrom_faults {k : Nat} {image : List Int} (hk : k ≤ 256) (h : 256 < k + image.length) (s : State) :
    FaultsWith (loadFrom k image s) (.addressingError 256) := by
  induction image generalizing k s with
  | nil => exact absurd hk (Nat.not_le.2 h)
  | cons v image ih =>
    rw [loadFrom]
    rcases hk.eq_or_lt with rfl | hlt
    · exact faultsWith_of_eq_raise (memWrite_out (by decide) v s _)
    · rw [memWrite_in hlt]
      exact ih hlt (by rw [List.length_cons] at h; omega) _

/-- Settles O57: what a load that fits leaves in memory is read off `loadImage_read`, its frame off `loadFrom_next`, and a
longer image runs into address 256. -/
theorem loadCopiesTheImageOrFaults : Obligations.LoadCopiesTheImageOrFaults := by
  refine fun image s => ⟨fun hfits => ?_, fun hlong => loadFrom_faults (Nat.zero_le _) (by rwa [Nat.zero_add]) s⟩
  obtain ⟨t, ht, hread⟩ := loadImage_read hfits s
  obtain ⟨-, hframe, -⟩ := loadFrom_next ht
  exact ⟨t, ht, hframe, fun k hk => (hread k).trans (if_pos hk), fun a ha => (hread a).trans (if_neg ha.not_gt)⟩

end Sys2Proof.Machine
end
